-- ==== Sys2Proof/Word.lean ====
section
/-! DEFINITION. The widths of the block's words (00_scope.md R6, 30_encoding.md R81). -/

namespace Sys2Proof

/-- A frame byte, the length byte or the byte count `n`: 8 bits unsigned (R6). -/
abbrev Byte := BitVec 8

/-- The CRC accumulator and every 16-bit value of the spec (R6). -/
abbrev U16 := BitVec 16

/-- A step word: `op = word[10:8]`, `data = word[7:0]` (R81). -/
abbrev StepWord := BitVec 11

end Sys2Proof
end

