-- ==== Sys2Proof/Config.lean ====
section
/-! DEFINITION. The parameters of the block (00_scope.md section 4). -/

namespace Sys2Proof

/-- The fixed parameters of R4, each a named field whose default is the spec's value.
UNVERIFIED against a device (D17, I10); unsafe if a literal is wrong: notes/assumptions/1.md. -/
structure Config where
  /-- `START_CODE`. -/
  startCode : Byte := 0x02#8
  /-- `PERIPH_ADDR`. -/
  periphAddr : Byte := 0x03#8
  /-- `CRC_POLY`, the reflected mask. -/
  crcPoly : U16 := 0x8408#16
  /-- `CRC_INIT`. -/
  crcInit : U16 := 0x0000#16
  /-- `MIN_FRAME`, bytes buffered before any completion. -/
  minFrame : Nat := 6
  /-- `MAX_FRAME`, largest length byte and buffer capacity. -/
  maxFrame : Nat := 255
  /-- `CTRL_LEN`, the length byte that means "not length-framed". -/
  ctrlLen : Byte := 0x00#8
  /-- `ACK_SENTINEL`. -/
  ackSentinel : Byte := 0x00#8
  /-- `NACK_SENTINEL`. -/
  nackSentinel : Byte := 0xFF#8
  /-- `ILLEGAL_SENTINEL`. -/
  illegalSentinel : Byte := 0x30#8
  /-- `HEADER_LEN`: start, address, length, command. -/
  headerLen : Nat := 4
  /-- `CRC_LEN`. -/
  crcLen : Nat := 2
  deriving DecidableEq, Repr

/-- The configuration of this block: every parameter at the spec's value (R4, R232). -/
def config : Config := {}

/-- One less than the open parameter `MAX_ATTEMPTS` of R5. It has no body: nothing can be proved of its value. -/
opaque Config.maxAttemptsLessOne : Nat

/-- `MAX_ATTEMPTS`, a natural number `>= 1` and nothing more (R5, D6, I9). DESIGN CHOICE, safe:
notes/assumptions/2.md. -/
def Config.maxAttempts : Nat := Config.maxAttemptsLessOne + 1

/-- The answer to the document's open question about a length byte 0 with more than six bytes read: accept the frame, or
a framing error (I2, D4). It has no body: neither answer can be proved. No part of the block reads it (41_reassembler.md
R127). DESIGN CHOICE, safe: notes/assumptions/28.md. -/
opaque Config.acceptsOversizeZeroLength : Bool

end Sys2Proof
end

