-- ==== Sys2Proof/Machine/Operands.lean ====
section
/-! DEFINITION. Every operand form of the spec: the fields of a step word, zero extension, the little-endian checksum
pair and the wire layout of a frame (30_encoding.md R70, R81, R83; 20_memory.md R54). -/

namespace Sys2Proof

/-- `word[10:8]` (R81). -/
def opField (w : StepWord) : BitVec 3 := w.extractLsb' 8 3

/-- `word[7:0]`, the byte operand, unsigned and used as is (R83). -/
def dataField (w : StepWord) : Byte := w.extractLsb' 0 8

/-- A step word from its two fields (R81). -/
def mkWord (op : BitVec 3) (data : Byte) : StepWord := op ++ data

/-- `zext_16` (00_scope.md section 5). -/
def zext16 (b : Byte) : U16 := b.setWidth 16

/-- The 16-bit value of two checksum bytes, least significant first (R54). -/
def lePair (lo hi : Byte) : U16 := zext16 lo ||| (zext16 hi <<< 8)

/-- `c[7:0]`. -/
def lowByte (c : U16) : Byte := c.extractLsb' 0 8

/-- `c[15:8]`. -/
def highByte (c : U16) : Byte := c.extractLsb' 8 8

/-- The bytes of a frame that its checksum covers (R73). -/
def frameBody (start addr len cmd : Byte) (payload : List Byte) : List Byte :=
  start :: addr :: len :: cmd :: payload

/-- A whole frame in wire order (R70, R71). -/
def frameBytes (start addr len cmd : Byte) (payload : List Byte) (crcLo crcHi : Byte) : List Byte :=
  frameBody start addr len cmd payload ++ [crcLo, crcHi]

/-- The last two bytes of a sequence taken off it: what stands before them, then the two (R162). -/
def splitChecksum : List Byte → Option (List Byte × Byte × Byte)
  | [] => none
  | [_] => none
  | [lo, hi] => some ([], lo, hi)
  | x :: y :: z :: zs =>
    match splitChecksum (y :: z :: zs) with
    | none => none
    | some (body, lo, hi) => some (x :: body, lo, hi)

end Sys2Proof
end

