-- ==== Sys2Proof/Machine/Crc.lean ====
section
/-! DEFINITION. The checksum function of the spec, 40_crc16.md R100 to R102, and its table form R110. -/

namespace Sys2Proof

/-- One iteration of R100: the low bit is tested before the shift, the mask applied after it. -/
def crcShift1 (c : U16) : U16 :=
  if c.getLsbD 0 then (c >>> 1) ^^^ config.crcPoly else c >>> 1

/-- `k` iterations of R100. -/
def crcShift : Nat → U16 → U16
  | 0, c => c
  | k + 1, c => crcShift k (crcShift1 c)

/-- `crc_shift8` (R100). -/
def crcShift8 (c : U16) : U16 := crcShift 8 c

/-- `crc_update` (R101). -/
def crcUpdate (c : U16) (b : Byte) : U16 := crcShift8 (c ^^^ zext16 b)

/-- The accumulator after the bytes of a sequence, from any starting value (the loop of R102). -/
def crcFrom : U16 → List Byte → U16
  | c, [] => c
  | c, b :: bs => crcFrom (crcUpdate c b) bs

/-- `crc16` (R102). -/
def crc16 (bytes : List Byte) : U16 := crcFrom config.crcInit bytes

/-- `T[i]` (R110). -/
def crcTable (i : Byte) : U16 := crcShift8 (zext16 i)

/-- The table form of the byte update (R110). -/
def crcUpdateByTable (c : U16) (b : Byte) : U16 :=
  (c >>> 8) ^^^ crcTable (lowByte (c ^^^ zext16 b))

end Sys2Proof
end

