-- ==== Sys2Proof/Syntax.lean ====
section
/-! DEFINITION. The inputs of the block and its instructions: one constructor per row of spec/opcode_table.json. -/

namespace Sys2Proof

/-- One entry of the stream the driver presents (30_encoding.md R90). -/
inductive Input where
  /-- An 11-bit step word (R81). -/
  | word (w : StepWord)
  /-- The separate input `rst`, applied between steps (R86). -/
  | rst
  /-- Bytes that arrive from the line at the environment in one burst, in wire order. The environment offers them to the
  block one RX_BYTE word at a time while `rx_ready = 1` (R36, R65, R236). DESIGN CHOICE: notes/assumptions/5.md. -/
  | line (bytes : List Byte)
  deriving DecidableEq, Repr

/-- The rows of spec/opcode_table.json. The first eight are the operations of R82 (with the reserved value), then the
`rst` input, then the six wire frames by the result they end in. A field the row ignores is no operand (R83). -/
inductive Instr where
  /-- NOP, R121. -/
  | nop
  /-- CRC_INIT, R103. -/
  | crcInit
  /-- CRC_BYTE, R104. -/
  | crcByte (b : Byte)
  /-- ARM, R122. -/
  | arm
  /-- RX_BYTE, R123. -/
  | rxByte (b : Byte)
  /-- ATTEMPT_END, R124. -/
  | attemptEnd
  /-- RX_ERROR, R125. -/
  | rxError
  /-- RESERVED_111, R84. -/
  | reserved111
  /-- RESET, the input `rst`, R230. -/
  | reset
  /-- FRAME_ACK: `02 03 len 00 crcLo crcHi` with its checksum right, R163. -/
  | frameAck (len crcLo crcHi : Byte)
  /-- FRAME_NACK: `02 03 len FF crcLo crcHi` with its checksum right, R163. -/
  | frameNack (len crcLo crcHi : Byte)
  /-- FRAME_ILLEGAL: `02 03 len 30 crcLo crcHi` with its checksum right, R163. -/
  | frameIllegal (len crcLo crcHi : Byte)
  /-- FRAME_DATA: `02 03 len cmd payload crcLo crcHi` with its checksum right, and no control frame, R163. -/
  | frameData (len cmd : Byte) (payload : List Byte) (crcLo crcHi : Byte)
  /-- FRAME_BAD_HEADER: a start code other than `02` or an address other than `03`, R161. -/
  | frameBadHeader (start addr len cmd : Byte) (payload : List Byte) (crcLo crcHi : Byte)
  /-- FRAME_BAD_CRC: a good header and a checksum that differs from the computed one, R162. -/
  | frameBadCrc (len cmd : Byte) (payload : List Byte) (crcLo crcHi : Byte)
  deriving DecidableEq, Repr

end Sys2Proof
end

