-- ==== Sys2Proof/Machine/State.lean ====
section
/-! DEFINITION. The state of the block (10_state.md R20), the model's input side, the reasons a step can stop, and the
state after reset (70_reset_and_hazards.md R230). -/

namespace Sys2Proof.Machine

/-- The synchronizer state `st` (R24). The code `0b11` is never produced and has no constructor. -/
inductive SyncState where
  | idle
  | accum
  | done
  deriving DecidableEq, Repr

/-- The 2-bit code of `st` (R24). -/
def SyncState.code : SyncState → BitVec 2
  | .idle => 0b00#2
  | .accum => 0b01#2
  | .done => 0b10#2

/-- The result of an accumulation (30_encoding.md R80). The codes `0x9` to `0xF` are never produced and have no
constructor (I7). -/
inductive Result where
  /-- NONE: no outcome yet. -/
  | none
  /-- DATA: data frame delivered. -/
  | data
  /-- ACK: acknowledgment only. -/
  | ack
  /-- NACK: `Nack` protocol error. -/
  | nack
  /-- ILLEGAL: `IllegalCommand` protocol error. -/
  | illegal
  /-- FRAMING: `FramingError`. -/
  | framing
  /-- CHECKSUM: `ChecksumError`. -/
  | checksum
  /-- TIMEOUT: `TimeoutError`. -/
  | timeout
  /-- IO: `IOError`. -/
  | io
  deriving DecidableEq, Repr

/-- The 4-bit code of `res` (R80). -/
def Result.code : Result → BitVec 4
  | .none => 0x0#4
  | .data => 0x1#4
  | .ack => 0x2#4
  | .nack => 0x3#4
  | .illegal => 0x4#4
  | .framing => 0x5#4
  | .checksum => 0x6#4
  | .timeout => 0x7#4
  | .io => 0x8#4

/-- The accumulation buffer (R26, 20_memory.md R50): the written cells by rising index. An index that is not listed is
`⊥`, a cell that holds no value. -/
abbrev Memory := List Host.Cell

/-- The canonical form: indices strictly rising, each one of the 255 cells. An unlisted cell holds no value, so no entry
equals what an unlisted index reads as. -/
abbrev Memory.wf (m : Memory) : Prop :=
  (m.map Prod.fst).Pairwise (· < ·) ∧ ∀ c ∈ m, c.1 < 255

/-- The outputs and read-out views that have a value only in some states (R33, R165, I5). -/
inductive NamedOutput where
  | lenField
  | crcRx
  | crcCalc
  | dataLen
  | payloadLen
  | frameView
  deriving DecidableEq, Repr

/-- Why a step or a read stops. -/
inductive Fault where
  /-- RX_BYTE presented while `st ≠ ACCUM`: the model is stuck at that word (R126). Raised by RX_BYTE. Safe. -/
  | rxNotReady
  /-- A read of a cell that holds no value (`UnwrittenRead`, R56). Raised by the read port and by every view of the
  buffer; by RX_BYTE only in states that no run from reset reaches. Safe. -/
  | unwrittenRead (i : Nat)
  /-- A read of an output or view that has no value in this state (R32, R33, R165, R166). Raised by the outputs and the
  views. Safe. -/
  | outputHasNoValue (o : NamedOutput)
  deriving DecidableEq, Repr

/-- What the model gives no meaning. -/
inductive Refusal where
  /-- An instruction that has no meaning yet. Raised by `exec` alone. Safe. -/
  | notModelled (mnemonic : String)
  /-- `ReservedOp`: a step word with `op = 111` (R84). Raised by RESERVED_111. Safe. -/
  | reservedOp
  /-- `PayloadTooLong`: `encode` with `6 + len(payload) > 255` (R168). Raised by the reference encoder. Safe. -/
  | payloadTooLong
  /-- A status word whose result field is one of `0x9` to `0xF` (I7). Raised by the status word's reader. Safe. -/
  | reservedResultCode
  /-- A status word whose state field is `0b11` (I8). Raised by the status word's reader. Safe. -/
  | reservedStateCode
  /-- A status word whose bit 7, which always reads 0 (R33), is 1. Raised by the status word's reader. Safe. -/
  | reservedStatusBit
  deriving DecidableEq, Repr

/-- The state: the seven fields of R20, then the model's own three. -/
structure State where
  /-- The CRC16 generator's accumulator (R23). -/
  crc : U16
  /-- The synchronizer state (R24). -/
  st : SyncState
  /-- Number of bytes stored in `buf` (R25). -/
  n : Byte
  /-- The accumulation buffer (R26). -/
  buf : Memory
  /-- Attempts ended in the current accumulation (R27). -/
  att : Nat
  /-- Result of the last accumulation (R28). -/
  res : Result
  /-- Sticky host-protocol violation flag (R29). -/
  viol : Bool
  /-- The open parameter `MAX_ATTEMPTS` (R5), fixed while the block runs (R232). The model's own field:
  notes/assumptions/2.md. -/
  maxAttempts : Nat
  /-- The inputs the driver has still to present, first one first (R90). The model's own field:
  notes/assumptions/3.md. -/
  stream : List Input
  /-- The bytes the environment holds, first one first (R36). The model's own field: notes/assumptions/4.md. -/
  held : List Byte
  deriving DecidableEq, Repr

/-- The machine right after reset (R230), with nothing presented and nothing held. -/
def State.reset : State where
  crc := 0x0000#16
  st := .idle
  n := 0
  buf := []
  att := 0
  res := .none
  viol := false
  maxAttempts := Config.maxAttempts
  stream := []
  held := []

end Sys2Proof.Machine
end

