-- ==== Sys2Proof/Machine/Ops.lean ====
section
/-! DEFINITION. The named operations over the buffer and the registers that the meanings share. -/

namespace Sys2Proof.Machine

/-- The cell of an index: its byte, or nothing for `⊥`. -/
def cellAt : Memory → Nat → Option Byte
  | [], _ => none
  | (j, v) :: m, i => if j = i then some v else cellAt m i

/-- `MemRead(i, 1)` (20_memory.md R52, R56). -/
def memRead (m : Memory) (i : Nat) : Except Fault Byte :=
  if i < config.maxFrame then
    match cellAt m i with
    | some v => .ok v
    | none => .error (.unwrittenRead i)
  else .error (.unwrittenRead i)

/-- `MemWrite(i, 1, v)`: the cell takes its place by index (20_memory.md R51). -/
def memWrite : Memory → Nat → Byte → Memory
  | [], i, v => [(i, v)]
  | (j, w) :: m, i, v =>
    if i < j then (i, v) :: (j, w) :: m
    else if i = j then (i, v) :: m
    else (j, w) :: memWrite m i v

/-- The `count` cells from index `i` on, in order; a `⊥` among them faults. -/
def memReadFrom (m : Memory) (i : Nat) : Nat → Except Fault (List Byte)
  | 0 => .ok []
  | count + 1 =>
    match memRead m i with
    | .error f => .error f
    | .ok b =>
      match memReadFrom m (i + 1) count with
      | .error f => .error f
      | .ok bs => .ok (b :: bs)

/-- Write the CRC16 generator's accumulator. -/
def setCrc (c : U16) (s : State) : State := { s with crc := c }

/-- ENTERING A RESULT, success or error: `res <- code; st <- DONE`, and nothing else changes. The one shared operation of
every `raise E` and `deliver K` (00_scope.md section 5, 60_exceptions.md R211). -/
def enterResult (r : Result) (s : State) : State := { s with res := r, st := .done }

/-- LEAVING A RESULT (60_exceptions.md R212), and the restart of ARM: the fields ARM writes whatever it finds
(41_reassembler.md R122). -/
def startAccumulation (s : State) : State :=
  { s with st := .accum, n := 0, att := 0, res := .none, buf := [] }

/-- Record a host-protocol violation; only ever sets the flag (10_state.md R29). -/
def recordViolation (found : Bool) (s : State) : State := { s with viol := s.viol || found }

/-- `MemWrite(n, 1, b); n <- n + 1` (41_reassembler.md R123). -/
def storeByte (b : Byte) (s : State) : State :=
  { s with buf := memWrite s.buf s.n.toNat b, n := s.n + 1 }

/-- `att <- att + 1` (41_reassembler.md R124). -/
def countAttempt (s : State) : State := { s with att := s.att + 1 }

/-- The bytes the environment holds become `bytes` (10_state.md R36). -/
def setHeld (bytes : List Byte) (s : State) : State := { s with held := bytes }

/-- The driver's stream becomes `xs` (30_encoding.md R90). -/
def setStream (xs : List Input) (s : State) : State := { s with stream := xs }

/-- Every piece of state of the block at its reset value (70_reset_and_hazards.md R230); the parameter (R232), the
driver's stream and the bytes the environment holds (R231) are not the block's and stay. -/
def resetBlock (s : State) : State :=
  { s with
    crc := config.crcInit, st := .idle, n := 0, att := 0, res := .none, viol := false, buf := [] }

end Sys2Proof.Machine
end

