-- ==== Sys2Proof/Machine/Control.lean ====
section
/-! DEFINITION. The input `rst` (70_reset_and_hazards.md R230) and the reserved operation (30_encoding.md R84). -/

namespace Sys2Proof.Machine

/-- RESET: every piece of state of the block at its reset value, whatever it was (R230, R231). -/
def execReset (s : State) : Host.Outcome State Fault Refusal := .next (resetBlock s)

/-- RESERVED_111: the spec promises nothing and a model refuses it (R84). -/
def execReserved111 (_ : State) : Host.Outcome State Fault Refusal := .refused .reservedOp

end Sys2Proof.Machine
end

