-- ==== Sys2Proof/Machine/CrcGenerator.lean ====
section
/-! DEFINITION. The operations of the CRC16 generator (40_crc16.md R103, R104). -/

namespace Sys2Proof.Machine

/-- CRC_INIT: `crc <- CRC_INIT`, in every `st` (R103). -/
def execCrcInit (s : State) : Host.Outcome State Fault Refusal := .next (setCrc config.crcInit s)

/-- CRC_BYTE: `crc <- crc_update(crc, b)`, in every `st` (R104). -/
def execCrcByte (b : Byte) (s : State) : Host.Outcome State Fault Refusal := .next (setCrc (crcUpdate s.crc b) s)

end Sys2Proof.Machine
end

