-- ==== Sys2Proof/Machine/Flags.lean ====
section
/-! DEFINITION. The flags and the status word, functions of the state with no storage (10_state.md R30, R31, R33). -/

namespace Sys2Proof.Machine

/-- `rx_ready` is 1 exactly when `st = ACCUM` (R30). -/
def rxReady (s : State) : Bool := s.st == .accum

/-- `done` is 1 exactly when `st = DONE` (R31). -/
def doneFlag (s : State) : Bool := s.st == .done

/-- The packed status word: `n`, 0, `viol`, `res`, `st` from bit 15 down (R33). -/
def statusWord (s : State) : U16 :=
  s.n ++ 0#1 ++ BitVec.ofBool s.viol ++ s.res.code ++ s.st.code

/-- The state a 2-bit code stands for; `0b11` none (R24). -/
def syncStateOfCode (c : BitVec 2) : Option SyncState :=
  match c.toNat with
  | 0 => some .idle
  | 1 => some .accum
  | 2 => some .done
  | _ => none

/-- The result a 4-bit code stands for; `0x9` to `0xF` none (R80). -/
def resultOfCode (c : BitVec 4) : Option Result :=
  match c.toNat with
  | 0 => some .none
  | 1 => some .data
  | 2 => some .ack
  | 3 => some .nack
  | 4 => some .illegal
  | 5 => some .framing
  | 6 => some .checksum
  | 7 => some .timeout
  | 8 => some .io
  | _ => none

/-- The six results validation writes (10_state.md R34 (f)). -/
def Result.byValidation : Result → Bool
  | .none => false
  | .data => true
  | .ack => true
  | .nack => true
  | .illegal => true
  | .framing => true
  | .checksum => true
  | .timeout => false
  | .io => false

/-- What a host reads out of a status word. -/
structure StatusView where
  st : SyncState
  res : Result
  viol : Bool
  n : Byte
  deriving DecidableEq, Repr

/-- The fields of a status word; a reserved code is refused (I7, I8). -/
def readStatus (w : U16) : Except Refusal StatusView :=
  if w.getLsbD 7 then .error .reservedStatusBit
  else
    match syncStateOfCode (w.extractLsb' 0 2), resultOfCode (w.extractLsb' 2 4) with
    | none, _ => .error .reservedStateCode
    | some _, none => .error .reservedResultCode
    | some st, some res => .ok { st := st, res := res, viol := w.getLsbD 6, n := w.extractLsb' 8 8 }

/-- The width of `att`: `ceil(log2(MAX_ATTEMPTS + 1))` bits (R5, R27). -/
def attWidth (maxAttempts : Nat) : Nat := Nat.clog 2 (maxAttempts + 1)

end Sys2Proof.Machine
end

