-- ==== Sys2Proof/Machine/Validator.lean ====
section
/-! DEFINITION. The completion predicate (41_reassembler.md R120) and the validator (42_validator.md R160 to R163),
pure functions of the buffered bytes. -/

namespace Sys2Proof.Machine

/-- `complete(n, L)` (R120). -/
def complete (n : Nat) (len : Byte) : Bool :=
  decide (config.minFrame ≤ n) && (len == config.ctrlLen || len.toNat == n)

/-- `raw[0] = START_CODE and raw[1] = PERIPH_ADDR` (R161). -/
def headerOk (raw : List Byte) : Bool :=
  raw[0]? == some config.startCode && raw[1]? == some config.periphAddr

/-- The frame without its last two bytes, `raw[0 .. n-3]`. -/
def stripped (raw : List Byte) : List Byte := raw.take (raw.length - config.crcLen)

/-- The received checksum, the last two bytes least significant first (R162, 20_memory.md R54); nothing where there are
not two bytes. -/
def receivedChecksum (raw : List Byte) : Option U16 :=
  match raw.drop (raw.length - config.crcLen) with
  | [lo, hi] => some (lePair lo hi)
  | _ => none

/-- The computed checksum, `crc16(raw[0 .. n-3])` (R162). -/
def computedChecksum (raw : List Byte) : U16 := crc16 (stripped raw)

/-- The checksum check passes (R162). -/
def checksumOk (raw : List Byte) : Bool := receivedChecksum raw == some (computedChecksum raw)

/-- Classification of a frame that passed both checks (R163). -/
def classify (raw : List Byte) : Result :=
  if (stripped raw).length = config.headerLen then
    if raw[3]? = some config.ackSentinel then .ack
    else if raw[3]? = some config.nackSentinel then .nack
    else if raw[3]? = some config.illegalSentinel then .illegal
    else .data
  else .data

/-- `validate(raw)` (R160): header, then checksum, then classification; the first that applies decides (R209). It is
called on at least six bytes only; notes/assumptions/24.md says what it gives on fewer. -/
def validate (raw : List Byte) : Result :=
  if !headerOk raw then .framing
  else if !checksumOk raw then .checksum
  else classify raw

end Sys2Proof.Machine
end

