-- ==== Sys2Proof/Machine/Outputs.lean ====
section
/-! DEFINITION. The outputs of 10_state.md R33 and the read-out views of a completed frame (42_validator.md R164 to
R166). Each is a function of the state; reading one that has no value faults. -/

namespace Sys2Proof.Machine

/-- `crc_out` (R23, R105). -/
def crcOut (s : State) : U16 := s.crc

/-- `att_out`, at the width of `att` (R33). -/
def attOut (s : State) : BitVec (attWidth s.maxAttempts) := BitVec.ofNat _ s.att

/-- `rd_data` for the input `rd_addr` (20_memory.md R52). -/
def rdData (addr : Byte) (s : State) : Except Fault Byte := memRead s.buf addr.toNat

/-- `len_field`: `buf[2]` when `n >= 3` (R32). -/
def lenField (s : State) : Except Fault Byte :=
  if 3 ≤ s.n.toNat then memRead s.buf 2 else .error (.outputHasNoValue .lenField)

/-- The raw frame `buf[0 .. n-1]` (00_scope.md section 6). -/
def rawFrame (s : State) : Except Fault (List Byte) := memReadFrom s.buf 0 s.n.toNat

/-- `crc_rx`: the received checksum when `n >= 6`, in any `st` (R166). -/
def crcRx (s : State) : Except Fault U16 :=
  if config.minFrame ≤ s.n.toNat then
    match memRead s.buf (s.n.toNat - 2), memRead s.buf (s.n.toNat - 1) with
    | .ok lo, .ok hi => .ok (lePair lo hi)
    | .error f, _ => .error f
    | .ok _, .error f => .error f
  else .error (.outputHasNoValue .crcRx)

/-- `crc_calc`: the computed checksum when `n >= 6`, in any `st` (R166). -/
def crcCalc (s : State) : Except Fault U16 :=
  if config.minFrame ≤ s.n.toNat then
    match memReadFrom s.buf 0 (s.n.toNat - 2) with
    | .ok bytes => .ok (crc16 bytes)
    | .error f => .error f
  else .error (.outputHasNoValue .crcCalc)

/-- A result that carries data: `st = DONE` and `res = DATA`. -/
def hasData (s : State) : Bool := s.st == .done && s.res == .data

/-- `data_len = n - 5` for a DATA result (R33, R164). -/
def dataLen (s : State) : Except Fault Byte :=
  if hasData s then .ok (s.n - 5) else .error (.outputHasNoValue .dataLen)

/-- `payload_len = n - 6` for a DATA result (R33, R165). -/
def payloadLen (s : State) : Except Fault Byte :=
  if hasData s then .ok (s.n - 6) else .error (.outputHasNoValue .payloadLen)

/-- The data view of a DATA result, `buf[3 .. n-3]` (R164); no other result carries data. -/
def dataView (s : State) : Except Fault (List Byte) :=
  if hasData s then memReadFrom s.buf 3 (s.n.toNat - 5) else .error (.outputHasNoValue .dataLen)

/-- A frame has completed, whatever validation said of it: `st = DONE` with one of validation's results. -/
def frameCompleted (s : State) : Bool := s.st == .done && s.res.byValidation

/-- The command byte of the frame view, `buf[3]` (R165). DESIGN CHOICE: outside a completed frame, where R165 gives no
view, reading it faults (notes/assumptions/26.md). -/
def commandCode (s : State) : Except Fault Byte :=
  if frameCompleted s then memRead s.buf 3 else .error (.outputHasNoValue .frameView)

/-- The payload of the frame view, `buf[4 .. n-3]` (R165). DESIGN CHOICE: outside a completed frame, where R165 gives no
view, reading it faults (notes/assumptions/26.md). -/
def payloadView (s : State) : Except Fault (List Byte) :=
  if frameCompleted s then memReadFrom s.buf 4 (s.n.toNat - 6) else .error (.outputHasNoValue .frameView)

end Sys2Proof.Machine
end

