-- ==== Sys2Proof/Machine/Synchronizer.lean ====
section
/-! DEFINITION. The operations of the frame synchronizer (41_reassembler.md R121 to R126). -/

namespace Sys2Proof.Machine

/-- NOP: no state changes (R121). -/
def execNop (s : State) : Host.Outcome State Fault Refusal := .next s

/-- ARM: start accumulating; a violation is recorded where an accumulation was running (R122, R234). -/
def execArm (s : State) : Host.Outcome State Fault Refusal :=
  .next (startAccumulation (recordViolation (s.st == .accum) s))

/-- The completion predicate on the buffered bytes; the length byte is read only from six bytes on (R120). -/
def frameComplete (s : State) : Except Fault Bool :=
  if config.minFrame ≤ s.n.toNat then
    match memRead s.buf 2 with
    | .ok len => .ok (complete s.n.toNat len)
    | .error f => .error f
  else .ok false

/-- The end of R123's step, after the byte is stored: validate and enter the result where the frame is complete. -/
def finishByte (s : State) : Host.Outcome State Fault Refusal :=
  match frameComplete s with
  | .error f => .fault f
  | .ok false => .next s
  | .ok true =>
    match rawFrame s with
    | .error f => .fault f
    | .ok raw => .next (enterResult (validate raw) s)

/-- R123 with its precondition `st = ACCUM` met: store at index `n`, or discard where the buffer is full (R132). -/
def consumeByte (b : Byte) (s : State) : Host.Outcome State Fault Refusal :=
  if s.n.toNat < config.maxFrame then finishByte (storeByte b s) else .next s

/-- RX_BYTE: consume one byte in ACCUM (R123); elsewhere no transition (R126). -/
def execRxByte (b : Byte) (s : State) : Host.Outcome State Fault Refusal :=
  if s.st = .accum then consumeByte b s else .fault .rxNotReady

/-- The end of R124's step in ACCUM: the `MAX_ATTEMPTS`-th attempt enters TIMEOUT. -/
def finishAttempt (s : State) : State :=
  if s.att = s.maxAttempts then enterResult .timeout s else s

/-- ATTEMPT_END: count the attempt in ACCUM (R124); elsewhere no state changes. -/
def execAttemptEnd (s : State) : Host.Outcome State Fault Refusal :=
  .next (if s.st = .accum then finishAttempt (countAttempt s) else s)

/-- RX_ERROR: enter IO in ACCUM (R125); elsewhere no state changes. -/
def execRxError (s : State) : Host.Outcome State Fault Refusal :=
  .next (if s.st = .accum then enterResult .io s else s)

end Sys2Proof.Machine
end

