-- ==== Sys2Proof/Machine/Wire.lean ====
section
/-! DEFINITION. Bytes from the line. They wait with the environment, which presents them by RX_BYTE, one word a step, in
their order, while `rx_ready = 1` (10_state.md R36, 20_memory.md R65, 30_encoding.md R90, 70_reset_and_hazards.md R236
(a)). The frame rows of the table are bursts that form one frame. DESIGN CHOICE: notes/assumptions/5.md. -/

namespace Sys2Proof.Machine

/-- The environment's word of this step: RX_BYTE of the first byte it holds, where the block is ready (R36, R236 (a)).
Nothing happens while it is not, or while nothing is held. -/
def presentHeld (s : State) : Host.Outcome State Fault Refusal :=
  match s.held with
  | [] => .next s
  | b :: bs => if s.st = .accum then execRxByte b (setHeld bs s) else .next s

/-- Bytes arrive behind those the environment holds, and it presents the first it now has (R36, R65): at most one
RX_BYTE, as in every step (30_encoding.md R90). -/
def receive (bytes : List Byte) (s : State) : Host.Outcome State Fault Refusal :=
  presentHeld (setHeld (s.held ++ bytes) s)

/-- FRAME_ACK (R163): on a block armed with nothing held its bytes, one a step, end in ACK. -/
def execFrameAck (len crcLo crcHi : Byte) (s : State) : Host.Outcome State Fault Refusal :=
  receive (frameBytes config.startCode config.periphAddr len config.ackSentinel [] crcLo crcHi) s

/-- FRAME_NACK (R163): on a block armed with nothing held its bytes, one a step, end in NACK. -/
def execFrameNack (len crcLo crcHi : Byte) (s : State) : Host.Outcome State Fault Refusal :=
  receive (frameBytes config.startCode config.periphAddr len config.nackSentinel [] crcLo crcHi) s

/-- FRAME_ILLEGAL (R163): on a block armed with nothing held its bytes, one a step, end in ILLEGAL. -/
def execFrameIllegal (len crcLo crcHi : Byte) (s : State) : Host.Outcome State Fault Refusal :=
  receive (frameBytes config.startCode config.periphAddr len config.illegalSentinel [] crcLo crcHi) s

/-- FRAME_DATA (R163): on a block armed with nothing held its bytes, one a step, end in DATA. -/
def execFrameData (len cmd : Byte) (payload : List Byte) (crcLo crcHi : Byte) (s : State) :
    Host.Outcome State Fault Refusal :=
  receive (frameBytes config.startCode config.periphAddr len cmd payload crcLo crcHi) s

/-- FRAME_BAD_HEADER (R161): on a block armed with nothing held its bytes, one a step, end in FRAMING. -/
def execFrameBadHeader (start addr len cmd : Byte) (payload : List Byte) (crcLo crcHi : Byte) (s : State) :
    Host.Outcome State Fault Refusal :=
  receive (frameBytes start addr len cmd payload crcLo crcHi) s

/-- FRAME_BAD_CRC (R162): on a block armed with nothing held its bytes, one a step, end in CHECKSUM. -/
def execFrameBadCrc (len cmd : Byte) (payload : List Byte) (crcLo crcHi : Byte) (s : State) :
    Host.Outcome State Fault Refusal :=
  receive (frameBytes config.startCode config.periphAddr len cmd payload crcLo crcHi) s

end Sys2Proof.Machine
end

