-- ==== Sys2Proof/Machine/Dispatch.lean ====
section
/-! DEFINITION. One arm per constructor of Instr. -/

namespace Sys2Proof.Machine

def exec (i : Instr) (s : State) : Host.Outcome State Fault Refusal :=
  match i with
  | .nop => Sys2Proof.Machine.execNop s
  | .crcInit => Sys2Proof.Machine.execCrcInit s
  | .crcByte b => Sys2Proof.Machine.execCrcByte b s
  | .arm => Sys2Proof.Machine.execArm s
  | .rxByte b => Sys2Proof.Machine.execRxByte b s
  | .attemptEnd => Sys2Proof.Machine.execAttemptEnd s
  | .rxError => Sys2Proof.Machine.execRxError s
  | .reserved111 => Sys2Proof.Machine.execReserved111 s
  | .reset => Sys2Proof.Machine.execReset s
  | .frameAck len crcLo crcHi => Sys2Proof.Machine.execFrameAck len crcLo crcHi s
  | .frameNack len crcLo crcHi => Sys2Proof.Machine.execFrameNack len crcLo crcHi s
  | .frameIllegal len crcLo crcHi => Sys2Proof.Machine.execFrameIllegal len crcLo crcHi s
  | .frameData len cmd payload crcLo crcHi => Sys2Proof.Machine.execFrameData len cmd payload crcLo crcHi s
  | .frameBadHeader start addr len cmd payload crcLo crcHi => Sys2Proof.Machine.execFrameBadHeader start addr len cmd payload crcLo crcHi s
  | .frameBadCrc len cmd payload crcLo crcHi => Sys2Proof.Machine.execFrameBadCrc len cmd payload crcLo crcHi s

end Sys2Proof.Machine
end

