-- ==== Sys2Proof/WellFormed.lean ====
section
/-! DEFINITION. Which instruction terms stand for a row of spec/opcode_table.json: the conditions the frame rows carry. -/

namespace Sys2Proof

/-- The length byte of a frame of `n` bytes: `n` itself, or 0 in a frame of six (30_encoding.md R70 to R72; the frame
completes at its last byte and not before, 41_reassembler.md R127, R129). -/
def lengthByteOk (len : Byte) (n : Nat) : Bool :=
  (len == config.ctrlLen && n == config.minFrame) || len.toNat == n

/-- The checksum bytes are those of R73: `crc16(body) = crcLo | crcHi << 8`. -/
def checksumMatches (body : List Byte) (crcLo crcHi : Byte) : Bool :=
  crc16 body == lePair crcLo crcHi

/-- The start code and the address are the fixed ones (R161). -/
def headerMatches (start addr : Byte) : Bool :=
  start == config.startCode && addr == config.periphAddr

/-- One of the three sentinels of R74. -/
def isSentinel (cmd : Byte) : Bool :=
  cmd == config.ackSentinel || cmd == config.nackSentinel || cmd == config.illegalSentinel

/-- A six-byte frame with a sentinel at offset 3 (R163, R74). -/
def isControl (cmd : Byte) (payload : List Byte) : Bool := payload.isEmpty && isSentinel cmd

/-- Total length of a frame: header, payload, checksum (R70). -/
def frameLength (payload : List Byte) : Nat := config.headerLen + payload.length + config.crcLen

/-- The conditions of a control frame's row. -/
def controlOk (len cmd crcLo crcHi : Byte) : Bool :=
  lengthByteOk len (frameLength [])
    && checksumMatches (frameBody config.startCode config.periphAddr len cmd []) crcLo crcHi

/-- The instruction term meets the conditions of its row. -/
def Instr.wellFormed : Instr → Bool
  | .nop => true
  | .crcInit => true
  | .crcByte _ => true
  | .arm => true
  | .rxByte _ => true
  | .attemptEnd => true
  | .rxError => true
  | .reserved111 => true
  | .reset => true
  | .frameAck len lo hi => controlOk len config.ackSentinel lo hi
  | .frameNack len lo hi => controlOk len config.nackSentinel lo hi
  | .frameIllegal len lo hi => controlOk len config.illegalSentinel lo hi
  | .frameData len cmd p lo hi =>
      lengthByteOk len (frameLength p)
        && checksumMatches (frameBody config.startCode config.periphAddr len cmd p) lo hi
        && !isControl cmd p
  | .frameBadHeader start addr len _ p _ _ =>
      lengthByteOk len (frameLength p) && !headerMatches start addr
  | .frameBadCrc len cmd p lo hi =>
      lengthByteOk len (frameLength p)
        && !checksumMatches (frameBody config.startCode config.periphAddr len cmd p) lo hi

end Sys2Proof
end

