-- ==== Sys2Proof/Decode.lean ====
section
/-! DEFINITION. The decoder, total on every input, and the encoder (30_encoding.md). -/

namespace Sys2Proof

/-- Why an input decodes to no row of the table. -/
inductive Reject where
  /-- A burst of line bytes that is not exactly one frame (it does not complete at its last byte). -/
  | notOneFrame (bytes : List Byte)
  deriving DecidableEq, Repr

/-- The operation of a step word, read from bits 10..8 alone (R82, R85); ignored data bits are dropped (R83). -/
def decodeWord (w : StepWord) : Instr :=
  match (opField w).toNat with
  | 0 => .nop
  | 1 => .crcInit
  | 2 => .crcByte (dataField w)
  | 3 => .arm
  | 4 => .rxByte (dataField w)
  | 5 => .attemptEnd
  | 6 => .rxError
  | _ => .reserved111

/-- The row of a frame whose length byte is right, by the conditions of the table's frame rows in the order of
42_validator.md R160: header, checksum, sentinel. -/
def classifyFrame (start addr len cmd : Byte) (payload : List Byte) (crcLo crcHi : Byte) : Instr :=
  if !headerMatches start addr then .frameBadHeader start addr len cmd payload crcLo crcHi
  else if !checksumMatches (frameBody start addr len cmd payload) crcLo crcHi then
    .frameBadCrc len cmd payload crcLo crcHi
  else if payload.isEmpty && cmd == config.ackSentinel then .frameAck len crcLo crcHi
  else if payload.isEmpty && cmd == config.nackSentinel then .frameNack len crcLo crcHi
  else if payload.isEmpty && cmd == config.illegalSentinel then .frameIllegal len crcLo crcHi
  else .frameData len cmd payload crcLo crcHi

/-- The frame row a burst of line bytes stands for, if it is exactly one frame. -/
def decodeFrame (bytes : List Byte) : Option Instr :=
  match bytes with
  | start :: addr :: len :: cmd :: rest =>
    match splitChecksum rest with
    | none => none
    | some (payload, lo, hi) =>
      if lengthByteOk len (frameLength payload) then some (classifyFrame start addr len cmd payload lo hi) else none
  | _ => none

/-- The instruction of one input. -/
def decode : Input → Except Reject Instr
  | .word w => .ok (decodeWord w)
  | .rst => .ok .reset
  | .line bytes =>
    match decodeFrame bytes with
    | some i => .ok i
    | none => .error (.notOneFrame bytes)

/-- The input of an instruction: the step words of R82 with zero in the ignored data bits (R87), `rst`, and the wire
bytes of a frame (R70, R71). -/
def encode : Instr → Input
  | .nop => .word (mkWord 0b000#3 0)
  | .crcInit => .word (mkWord 0b001#3 0)
  | .crcByte b => .word (mkWord 0b010#3 b)
  | .arm => .word (mkWord 0b011#3 0)
  | .rxByte b => .word (mkWord 0b100#3 b)
  | .attemptEnd => .word (mkWord 0b101#3 0)
  | .rxError => .word (mkWord 0b110#3 0)
  | .reserved111 => .word (mkWord 0b111#3 0)
  | .reset => .rst
  | .frameAck len lo hi => .line (frameBytes config.startCode config.periphAddr len config.ackSentinel [] lo hi)
  | .frameNack len lo hi => .line (frameBytes config.startCode config.periphAddr len config.nackSentinel [] lo hi)
  | .frameIllegal len lo hi =>
      .line (frameBytes config.startCode config.periphAddr len config.illegalSentinel [] lo hi)
  | .frameData len cmd p lo hi => .line (frameBytes config.startCode config.periphAddr len cmd p lo hi)
  | .frameBadHeader start addr len cmd p lo hi => .line (frameBytes start addr len cmd p lo hi)
  | .frameBadCrc len cmd p lo hi => .line (frameBytes config.startCode config.periphAddr len cmd p lo hi)

/-- The lowest `k` bytes of a number, most significant first: byte 0 of a frame row stands in the table's highest byte
(`47:40` of a six-byte row). DEDUCED: notes/assumptions/8.md. -/
def bytesMostSignificantFirst : Nat → Nat → List Byte
  | 0, _ => []
  | k + 1, w => BitVec.ofNat 8 (w >>> (8 * k)) :: bytesMostSignificantFirst k w

/-- The input whose bits the opcode table numbers as `w`, `nbits` of them: a step word where its 11 bits fit in 16 and
nothing stands above bit 10, a burst of line bytes from six bytes on. DESIGN CHOICE: notes/assumptions/9.md. -/
def inputOfTableWord (nbits w : Nat) : Option Input :=
  if nbits = 0 then none
  else if nbits ≤ 16 then
    if w % 2 ^ nbits < 2048 then some (.word (BitVec.ofNat 11 (w % 2 ^ nbits))) else none
  else if 48 ≤ nbits ∧ nbits % 8 = 0 ∧ nbits ≤ 2040 then
    some (.line (bytesMostSignificantFirst (nbits / 8) w))
  else none

/-- The instruction the decoder reads from the bits of a table row. -/
def decodeTableWord (nbits w : Nat) : Option Instr :=
  match inputOfTableWord nbits w with
  | none => none
  | some x =>
    match decode x with
    | .ok i => some i
    | .error _ => none

end Sys2Proof
end

