-- ==== Sys2Proof/Machine/Feed.lean ====
section
/-! DEFINITION. What a step does around `exec`: whose word is next, the block with nothing presented, a burst that is no
frame row, and the placing of an input where the next step takes it. -/

namespace Sys2Proof.Machine

/-- The words that the environment presents after the bytes it was given before (30_encoding.md R90, 20_memory.md R65,
70_reset_and_hazards.md R236 (a), (b), (c)). A frame row's bytes go behind those bytes by themselves. -/
def environmentWord : Instr → Bool
  | .rxByte _ => true
  | .attemptEnd => true
  | .rxError => true
  | .nop => false
  | .crcInit => false
  | .crcByte _ => false
  | .arm => false
  | .reserved111 => false
  | .reset => false
  | .frameAck _ _ _ => false
  | .frameNack _ _ _ => false
  | .frameIllegal _ _ _ => false
  | .frameData _ _ _ _ _ => false
  | .frameBadHeader _ _ _ _ _ _ _ => false
  | .frameBadCrc _ _ _ _ _ => false

/-- An input that waits for the bytes the environment holds. -/
def waitsForHeld (x : Input) : Bool :=
  match decode x with
  | .ok i => environmentWord i
  | .error _ => false

/-- The next word is RX_BYTE of a held byte: the block is ready, a byte is held, and no word of the host's comes first
(10_state.md R36, 30_encoding.md R90). DESIGN CHOICE: notes/assumptions/27.md. -/
def heldGoesFirst (s : State) : Bool :=
  rxReady s && !s.held.isEmpty &&
    match s.stream with
    | [] => true
    | x :: _ => waitsForHeld x

/-- With no step word presented the block holds its state (60_exceptions.md R220). -/
def execNoInput (s : State) : Host.Outcome State Fault Refusal := .next s

/-- A burst of line bytes that is not exactly one frame: its bytes arrive as those of a frame do (`rx.bytes`,
30_encoding.md R88; vector V-A15). An empty burst is the environment's turn: it presents the first byte it holds.
DESIGN CHOICE: notes/assumptions/6.md. -/
def execRejected (r : Reject) (s : State) : Host.Outcome State Fault Refusal :=
  match r with
  | .notOneFrame bytes => receive bytes s

/-- The bits of a table row presented before everything the stream holds, and before everything the environment holds:
a held byte that would go first is taken away, so that the very next step runs the row. A pattern that is no input leaves
the state as it is: the driver cannot present it. -/
def presentTableWord (nbits w : Nat) (s : State) : State :=
  match inputOfTableWord nbits w with
  | some x =>
    let placed := setStream (x :: s.stream) s
    if heldGoesFirst placed then setHeld [] placed else placed
  | none => s

end Sys2Proof.Machine
end

