-- ==== Sys2Proof/Machine/Step.lean ====
section
/-! DEFINITION. One step: one word of the merged stream of host and environment (30_encoding.md R90). -/

namespace Sys2Proof.Machine

/-- The environment's next held byte where it goes first; else the next input leaves the stream and its instruction runs;
with nothing presented the state is held. -/
def step (s : State) : Host.Outcome State Fault Refusal :=
  if heldGoesFirst s then presentHeld s
  else
    match s.stream with
    | [] => execNoInput s
    | x :: rest =>
      match decode x with
      | .ok i => exec i (setStream rest s)
      | .error r => execRejected r (setStream rest s)

/-- The state in which the next step takes the input whose table bits are `w`. -/
def State.withFetchWord (s : State) (nbits w : Nat) : State := presentTableWord nbits w s

end Sys2Proof.Machine
end

