-- ==== Sys2Proof/Machine/Reference.lean ====
section
/-! DEFINITION. The reference functions of the spec that are no operation of the block: the frame encoder
(42_validator.md R168), the document's `decode` (R161, R162, R165), its accumulation loop (41_reassembler.md R134), and
the streams that feed bytes and read attempts to the block. -/

namespace Sys2Proof.Machine

/-- `encode(cmd, payload)` (R168); a payload too long is refused. -/
def encodeFrame (cmd : Byte) (payload : List Byte) : Except Refusal (List Byte) :=
  if config.headerLen + config.crcLen + payload.length > config.maxFrame then .error .payloadTooLong
  else
    let body := frameBody config.startCode config.periphAddr
      (BitVec.ofNat 8 (config.headerLen + config.crcLen + payload.length)) cmd payload
    .ok (body ++ [lowByte (crc16 body), highByte (crc16 body)])

/-- How the document's `decode` fails. -/
inductive DecodeError where
  /-- It "requires `len(raw) >= 6`" (the precondition). -/
  | tooShort
  | framing
  | checksum
  deriving DecidableEq, Repr

/-- The document's `decode`, on a whole buffer and with no reassembler: the checks of R161 and R162 alone, then the frame
view `(commandCode, payload)` of R165. -/
def documentDecode (raw : List Byte) : Except DecodeError (Byte × List Byte) :=
  if raw.length < config.minFrame then .error .tooShort
  else if !headerOk raw then .error .framing
  else if !checksumOk raw then .error .checksum
  else
    match (stripped raw).drop 3 with
    | [] => .error .tooShort
    | cmd :: payload => .ok (cmd, payload)

/-- The bytes the inputs of a stream fold into the CRC16 generator, in order (R105). -/
def crcOperands : List Input → List Byte
  | [] => []
  | x :: xs =>
    match decode x with
    | .ok (.crcByte b) => b :: crcOperands xs
    | _ => crcOperands xs

/-- The bytes of the RX_BYTE words of a stream, in order. -/
def rxOperands : List Input → List Byte
  | [] => []
  | x :: xs =>
    match decode x with
    | .ok (.rxByte b) => b :: rxOperands xs
    | _ => rxOperands xs

/-- The stream in which each RX_BYTE word is the environment's turn instead, an empty burst. -/
def asTurns : List Input → List Input
  | [] => []
  | x :: xs =>
    match decode x with
    | .ok (.rxByte _) => .line [] :: asTurns xs
    | _ => x :: asTurns xs

/-- The inputs of read attempts: each one's bytes, and then its ATTEMPT_END (70_reset_and_hazards.md R236 (b)). -/
def attemptInputs : List (List Byte) → List Input
  | [] => []
  | chunk :: more => .line chunk :: encode .attemptEnd :: attemptInputs more

/-- Bytes presented by RX_BYTE words one after another, whether the block is ready or not (R123, R126). -/
def feedBytes : List Byte → State → Host.Outcome State Fault Refusal
  | [], s => .next s
  | b :: bs, s =>
    match execRxByte b s with
    | .next t => feedBytes bs t
    | .fault f => .fault f
    | .refused r => .refused r

/-- The completion predicate on a buffer as a list of bytes, of any length (R120). -/
def bufferComplete (buffer : List Byte) : Bool :=
  match buffer[2]? with
  | some len => complete buffer.length len
  | none => false

/-- Where the document's loop stands after some reads. -/
inductive LoopState where
  /-- It has left with an outcome. -/
  | ended (r : Result) (buffer : List Byte) (attempts : Nat)
  /-- It would read again. -/
  | reading (buffer : List Byte) (attempts : Nat)
  deriving DecidableEq, Repr

/-- A length byte 0 with more than six bytes: the case the document leaves open (I2, D4). -/
def oversizeZeroLength (buffer : List Byte) : Bool :=
  buffer[2]? == some config.ctrlLen && decide (config.minFrame < buffer.length)

/-- The outcome of the document's loop on the buffer it stops with (R160). For a length byte 0 with more than six bytes it
is an open parameter whether that is a framing error or the frame is accepted, that is, validated whole. DESIGN CHOICE:
notes/assumptions/28.md. -/
def loopOutcome (buffer : List Byte) : Result :=
  if oversizeZeroLength buffer && !Config.acceptsOversizeZeroLength then .framing else validate buffer

/-- The document's loop (R134): each read appends a whole chunk to an unbounded buffer, then completion is tested, then
the attempt counts. -/
def documentLoop (maxAttempts : Nat) : List Byte → Nat → List (List Byte) → LoopState
  | buffer, attempts, [] => .reading buffer attempts
  | buffer, attempts, chunk :: more =>
    if bufferComplete (buffer ++ chunk) then .ended (loopOutcome (buffer ++ chunk)) (buffer ++ chunk) attempts
    else if attempts + 1 = maxAttempts then .ended .timeout (buffer ++ chunk) (attempts + 1)
    else documentLoop maxAttempts (buffer ++ chunk) (attempts + 1) more

/-- No read returns bytes after the completing byte: the premise of R134. -/
def noSurplus : List Byte → List (List Byte) → Prop
  | _, [] => True
  | buffer, chunk :: more =>
    (∀ k, k < chunk.length → bufferComplete (buffer ++ chunk.take k) = false) ∧
      (bufferComplete (buffer ++ chunk) = false → noSurplus (buffer ++ chunk) more)

end Sys2Proof.Machine
end

