-- ==== Sys2Proof/Machine/Assembler.lean ====
section
/-! DEFINITION. The assembler syntax of 30_encoding.md R87 and the pseudo-instructions of R88: from the characters of a
program to the stream of inputs. What the two rules leave open is DESIGN CHOICE: notes/assumptions/20.md. -/

namespace Sys2Proof.Machine

/-- Why a line does not assemble. -/
inductive AsmError where
  | unknownOperation (name : List Char)
  /-- "any other value is an assembly error" (R87). -/
  | badImmediate
  | operandCount
  /-- `rx.frame` of a payload `encode` refuses (R168). -/
  | payloadTooLong
  deriving DecidableEq, Repr

/-- A character that separates and means nothing. -/
def isBlank (c : Char) : Bool := c == ' ' || c == '\t' || c == '\r'

/-- The pieces of a text between the characters that meet `p`. -/
def splitChars (p : Char → Bool) : List Char → List (List Char)
  | [] => [[]]
  | c :: cs =>
    if p c then [] :: splitChars p cs
    else
      match splitChars p cs with
      | [] => [[c]]
      | w :: ws => (c :: w) :: ws

/-- A text without the blanks at its two ends. -/
def trimBlanks (cs : List Char) : List Char :=
  ((cs.dropWhile isBlank).reverse.dropWhile isBlank).reverse

/-- The value of a decimal or hexadecimal digit. -/
def digitValue (c : Char) : Option Nat :=
  if '0' ≤ c ∧ c ≤ '9' then some (c.toNat - '0'.toNat)
  else if 'a' ≤ c ∧ c ≤ 'f' then some (c.toNat - 'a'.toNat + 10)
  else if 'A' ≤ c ∧ c ≤ 'F' then some (c.toNat - 'A'.toNat + 10)
  else none

/-- The value of digits in a base, after those already read. -/
def digitsValue (base : Nat) : Nat → List Char → Option Nat
  | acc, [] => some acc
  | acc, c :: cs =>
    match digitValue c with
    | some d => if d < base then digitsValue base (acc * base + d) cs else none
    | none => none

/-- An immediate: `0x` with one or two hexadecimal digits, or a decimal `0..255` (R87). -/
def parseImmediate : List Char → Except AsmError Byte
  | [] => .error .badImmediate
  | '0' :: 'x' :: ds =>
    if ds.length = 1 ∨ ds.length = 2 then
      match digitsValue 16 0 ds with
      | some v => .ok (BitVec.ofNat 8 v)
      | none => .error .badImmediate
    else .error .badImmediate
  | ds =>
    match digitsValue 10 0 ds with
    | some v => if v ≤ 255 then .ok (BitVec.ofNat 8 v) else .error .badImmediate
    | none => .error .badImmediate

/-- The immediates of an operand list. -/
def parseImmediates : List (List Char) → Except AsmError (List Byte)
  | [] => .ok []
  | cs :: more =>
    match parseImmediate (trimBlanks cs), parseImmediates more with
    | .ok b, .ok bs => .ok (b :: bs)
    | .error e, _ => .error e
    | .ok _, .error e => .error e

/-- The operands after an operation: none, or immediates separated by commas. -/
def parseOperands (cs : List Char) : Except AsmError (List Byte) :=
  if (trimBlanks cs).isEmpty then .ok [] else parseImmediates (splitChars (· == ',') cs)

/-- An operation that takes no operand. -/
def asmPlain (i : Instr) : List Byte → Except AsmError (List Input)
  | [] => .ok [encode i]
  | _ :: _ => .error .operandCount

/-- An operation that takes one immediate. -/
def asmByte (f : Byte → Instr) : List Byte → Except AsmError (List Input)
  | [b] => .ok [encode (f b)]
  | _ => .error .operandCount

/-- A pseudo-instruction over at least one immediate (R88). -/
def asmBytes (before : List Instr) (f : Byte → Instr) : List Byte → Except AsmError (List Input)
  | [] => .error .operandCount
  | b :: bs => .ok (before.map encode ++ (b :: bs).map (fun x => encode (f x)))

/-- `rx.attempt`: the bytes of one read attempt, perhaps none, then its end (R88). -/
def asmAttempt (bs : List Byte) : Except AsmError (List Input) :=
  .ok (bs.map (fun x => encode (.rxByte x)) ++ [encode .attemptEnd])

/-- `rx.frame`: the bytes of `encode(c, p)` (R88, R168). -/
def asmFrame : List Byte → Except AsmError (List Input)
  | [] => .error .operandCount
  | c :: p =>
    match encodeFrame c p with
    | .ok f => .ok (f.map (fun x => encode (.rxByte x)))
    | .error _ => .error .payloadTooLong

/-- One operation with its operands (the tables of R87 and R88). -/
def assembleOperation (name : List Char) (operands : List Byte) : Except AsmError (List Input) :=
  if name = "nop".toList then asmPlain .nop operands
  else if name = "crc.init".toList then asmPlain .crcInit operands
  else if name = "crc.byte".toList then asmByte .crcByte operands
  else if name = "arm".toList then asmPlain .arm operands
  else if name = "rx".toList then asmByte .rxByte operands
  else if name = "attempt".toList then asmPlain .attemptEnd operands
  else if name = "rxerr".toList then asmPlain .rxError operands
  else if name = "reset".toList then asmPlain .reset operands
  else if name = "crc.bytes".toList then asmBytes [] .crcByte operands
  else if name = "crc.seq".toList then asmBytes [.crcInit] .crcByte operands
  else if name = "rx.bytes".toList then asmBytes [] .rxByte operands
  else if name = "rx.attempt".toList then asmAttempt operands
  else if name = "rx.frame".toList then asmFrame operands
  else .error (.unknownOperation name)

/-- One line: a comment begins at `;`, and a line with no operation gives nothing (R87). -/
def assembleLine (line : List Char) : Except AsmError (List Input) :=
  let text := trimBlanks (line.takeWhile (· != ';'))
  if text.isEmpty then .ok []
  else
    match parseOperands (text.dropWhile (fun c => !isBlank c)) with
    | .ok operands => assembleOperation (text.takeWhile (fun c => !isBlank c)) operands
    | .error e => .error e

/-- The lines of a program, in order. -/
def assembleLines : List (List Char) → Except AsmError (List Input)
  | [] => .ok []
  | l :: ls =>
    match assembleLine l, assembleLines ls with
    | .ok xs, .ok ys => .ok (xs ++ ys)
    | .error e, _ => .error e
    | .ok _, .error e => .error e

/-- A program text: the stream it stands for. -/
def assemble (text : List Char) : Except AsmError (List Input) :=
  assembleLines (splitChars (· == '\n') text)

end Sys2Proof.Machine
end

