-- ==== Sys2Proof/Safety.lean ====
section
/-! DEFINITION. What holds of every reachable state (10_state.md R34, R27), what a claim about a run takes as a premise
(R29, R234), and the words that make a step stop. -/

namespace Sys2Proof.Machine

/-- The invariants of R34 and R27, the canonical form of the buffer, and the bound of R5. R34 (a) is the width of `n`. -/
structure State.Inv (s : State) : Prop where
  /-- The buffer is in canonical form. -/
  canonical : Memory.wf s.buf
  /-- R34 (b): a cell holds a value exactly below `n`. -/
  filled : ∀ i, (cellAt s.buf i).isSome = true ↔ i < s.n.toNat
  /-- R34 (c). -/
  idleClear : s.st = .idle → s.res = .none ∧ s.att = 0
  /-- R34 (d). -/
  accumOpen : s.st = .accum → s.res = .none ∧ s.att < s.maxAttempts
  /-- R59: no completed frame is seen in ACCUM. -/
  accumIncomplete : s.st = .accum → ∀ len, cellAt s.buf 2 = some len → complete s.n.toNat len = false
  /-- R34 (e). -/
  doneResult : s.st = .done → s.res ≠ .none
  /-- R34 (f). -/
  validated : s.res.byValidation = true →
    config.minFrame ≤ s.n.toNat ∧ ∃ len, cellAt s.buf 2 = some len ∧ complete s.n.toNat len = true
  /-- R27: `att` lies in `0..MAX_ATTEMPTS`. -/
  attemptsBounded : s.att ≤ s.maxAttempts
  /-- R27: `att` equals `MAX_ATTEMPTS` only after `TimeoutError`. -/
  attemptsExhausted : s.att = s.maxAttempts → s.res = .timeout
  /-- R5, R232. -/
  parameterLegal : 1 ≤ s.maxAttempts

/-- A result of validation is what validation gives of the bytes still in the buffer (R28, R208). -/
def State.ResultExplained (s : State) : Prop :=
  s.res.byValidation = true → ∃ raw, rawFrame s = .ok raw ∧ validate raw = s.res

/-- The buffer that holds exactly these bytes from index 0 on (20_memory.md R51). -/
def cellsOf (bytes : List Byte) : Memory := (List.range bytes.length).zip bytes

/-- A state a claim about a run may start from: reachable in form, and no violation recorded (R29, R234). -/
structure State.Safe (s : State) : Prop where
  inv : s.Inv
  noViolation : s.viol = false

/-- Just armed, as after ARM: accumulating with nothing buffered and no attempt ended (R122), nothing held, and no
violation recorded (R29, R234). -/
structure State.Armed (s : State) : Prop where
  st : s.st = .accum
  n : s.n = 0
  buf : s.buf = []
  att : s.att = 0
  res : s.res = .none
  held : s.held = []
  noViolation : s.viol = false

/-- The driver keeps its duties at this step: no RX_BYTE word while the block is not ready (R236 (a)) and no reserved
word (R84). -/
def keepsDuty (s : State) : Prop :=
  match s.stream with
  | [] => True
  | x :: _ =>
    match decode x with
    | .ok (.rxByte _) => s.st = .accum
    | .ok i => i ≠ .reserved111
    | .error _ => True

end Sys2Proof.Machine
end

