-- ==== Sys2Proof/Certificates/Slice0/Obligations.lean ====
section
/-! DEFINITION. The statements for the provers, one `def Obligations.<Name> : Prop` each, listed in OBLIGATIONS.json.
A statement about a run has the premise viol = 0 of 10_state.md R29 and 70_reset_and_hazards.md R234 (State.Safe,
State.Armed, or viol = 0 said outright); one about a single operation or step holds in every state, since the rules of
the operations speak of states with viol = 1 too (notes/assumptions/12.md). -/

open Sys2Proof Sys2Proof.Machine

/-- rst sets every piece of state of the block, whatever it was, and touches nothing of the environment (R230, R231).
-/
def Obligations.ResetSetsEveryPieceOfState : Prop :=
  ∀ s : State, ∃ t : State, exec .reset s = .next t ∧
    t.crc = 0x0000#16 ∧ t.st = .idle ∧ t.n = 0 ∧ t.att = 0 ∧ t.res = .none ∧ t.viol = false ∧
    (∀ i, cellAt t.buf i = none) ∧
    crcOut t = 0x0000#16 ∧ rxReady t = false ∧ doneFlag t = false ∧ statusWord t = 0x0000#16 ∧ attOut t = 0 ∧
    lenField t = .error (.outputHasNoValue .lenField) ∧
    (∀ a : Byte, rdData a t = .error (.unwrittenRead a.toNat)) ∧
    crcRx t = .error (.outputHasNoValue .crcRx) ∧ crcCalc t = .error (.outputHasNoValue .crcCalc) ∧
    dataLen t = .error (.outputHasNoValue .dataLen) ∧ payloadLen t = .error (.outputHasNoValue .payloadLen) ∧
    t.held = s.held ∧ t.stream = s.stream ∧ t.maxAttempts = s.maxAttempts

/-- The machine's reset state is what rst leaves of any state, with the model's own fields as they were
(70_reset_and_hazards.md R230, notes/assumptions/2.md, notes/assumptions/3.md, notes/assumptions/4.md). -/
def Obligations.ResetStateIsWhatRstLeaves : Prop :=
  ∀ s : State, exec .reset s =
    .next { State.reset with maxAttempts := s.maxAttempts, stream := s.stream, held := s.held }

/-- NOP changes no state, in every st (R121). -/
def Obligations.NopChangesNoState : Prop :=
  (∀ s : State, exec .nop s = .next s) ∧
    (∀ w : StepWord, w.extractLsb' 8 3 = 0b000#3 → decode (.word w) = .ok .nop) ∧
    assemble "nop".toList = .ok [.word 0x000#11]

/-- CRC_INIT writes 0x0000 to crc and leaves everything else (R103). -/
def Obligations.CrcInitClearsTheAccumulatorAlone : Prop :=
  (∀ s : State, exec .crcInit s = .next { s with crc := 0x0000#16 }) ∧
    (∀ w : StepWord, w.extractLsb' 8 3 = 0b001#3 → decode (.word w) = .ok .crcInit) ∧
    assemble "crc.init".toList = .ok [.word 0x100#11]

/-- CRC_BYTE folds its byte into crc and leaves everything else (R104). -/
def Obligations.CrcByteFoldsOneByte : Prop :=
  (∀ (b : Byte) (s : State), exec (.crcByte b) s = .next { s with crc := crcUpdate s.crc b }) ∧
    crcUpdate 0x0000#16 0x00#8 = 0x0000#16 ∧ crcUpdate 0xFFFF#16 0x00#8 = 0x0F87#16 ∧
    crcUpdate 0x0000#16 0xFF#8 = 0x0F78#16 ∧ crcUpdate 0x0000#16 0x80#8 = 0x8408#16 ∧
    crcUpdate 0x0000#16 0x01#8 = 0x1189#16 ∧
    (∀ w : StepWord, w.extractLsb' 8 3 = 0b010#3 → decode (.word w) = .ok (.crcByte (w.extractLsb' 0 8))) ∧
    assemble "crc.byte 0x01".toList = .ok [.word 0x201#11]

/-- ARM starts an accumulation, records a violation in ACCUM, and makes every cell unreadable (R122, R57). -/
def Obligations.ArmRestartsTheAccumulation : Prop :=
  (∀ s : State, ∃ t : State, exec .arm s = .next t ∧
    t = { s with st := .accum, n := 0, att := 0, res := .none, buf := [],
                 viol := if s.st = .accum then true else s.viol } ∧
    rxReady t = true ∧ doneFlag t = false ∧ ∀ a : Byte, rdData a t = .error (.unwrittenRead a.toNat)) ∧
    (∀ w : StepWord, w.extractLsb' 8 3 = 0b011#3 → decode (.word w) = .ok .arm) ∧
    assemble "arm".toList = .ok [.word 0x300#11]

/-- RX_BYTE in ACCUM stores its byte, and validates in the same step when the frame completes (R123). -/
def Obligations.RxByteStoresAndCompletes : Prop :=
  (∀ (b : Byte) (s : State), s.Inv → s.st = .accum →
    (s.n.toNat < 255 → ∃ raw : List Byte,
      raw.length = s.n.toNat + 1 ∧ raw.getLast? = some b ∧
      (∀ i, i < s.n.toNat → cellAt s.buf i = raw[i]?) ∧
      (∀ i, cellAt (memWrite s.buf s.n.toNat b) i = raw[i]?) ∧
      (6 ≤ raw.length ∧ (raw[2]? = some 0x00#8 ∨ raw[2]? = some (BitVec.ofNat 8 raw.length)) →
        exec (.rxByte b) s =
          .next { s with buf := memWrite s.buf s.n.toNat b, n := s.n + 1, res := validate raw, st := .done }) ∧
      (¬ (6 ≤ raw.length ∧ (raw[2]? = some 0x00#8 ∨ raw[2]? = some (BitVec.ofNat 8 raw.length))) →
        exec (.rxByte b) s = .next { s with buf := memWrite s.buf s.n.toNat b, n := s.n + 1 })) ∧
    (s.n.toNat = 255 → exec (.rxByte b) s = .next s)) ∧
    (∀ w : StepWord, w.extractLsb' 8 3 = 0b100#3 → decode (.word w) = .ok (.rxByte (w.extractLsb' 0 8))) ∧
    assemble "rx 0x02".toList = .ok [.word 0x402#11]

/-- RX_BYTE while st is not ACCUM is no step (R126). -/
def Obligations.RxByteOutsideAccumIsStuck : Prop :=
  ∀ (b : Byte) (s : State), s.st ≠ .accum → exec (.rxByte b) s = .fault .rxNotReady

/-- RX_BYTE changes at most the cell at index n, and no register but n, st and res (20_memory.md R51,
41_reassembler.md R123). -/
def Obligations.RxByteLeavesOtherCellsAndRegisters : Prop :=
  ∀ (b : Byte) (s t : State), exec (.rxByte b) s = .next t →
    (s.n.toNat < 255 → memRead t.buf s.n.toNat = .ok b) ∧
    (∀ a, (s.n.toNat < 255 → a ≠ s.n.toNat) → memRead t.buf a = memRead s.buf a) ∧
    t.crc = s.crc ∧ t.att = s.att ∧ t.viol = s.viol ∧
    t.maxAttempts = s.maxAttempts ∧ t.stream = s.stream ∧ t.held = s.held

/-- ATTEMPT_END counts in ACCUM, enters TIMEOUT at MAX_ATTEMPTS, and is ignored elsewhere (R124). -/
def Obligations.AttemptEndCountsAndTimesOut : Prop :=
  (∀ s : State,
    (s.st = .accum → s.att + 1 = s.maxAttempts →
      exec .attemptEnd s = .next { s with att := s.att + 1, res := .timeout, st := .done }) ∧
    (s.st = .accum → s.att + 1 ≠ s.maxAttempts → exec .attemptEnd s = .next { s with att := s.att + 1 }) ∧
    (s.st ≠ .accum → exec .attemptEnd s = .next s)) ∧
    (∀ w : StepWord, w.extractLsb' 8 3 = 0b101#3 → decode (.word w) = .ok .attemptEnd) ∧
    assemble "attempt".toList = .ok [.word 0x500#11]

/-- RX_ERROR enters IO in ACCUM and is ignored elsewhere (R125). -/
def Obligations.RxErrorAbortsTheAccumulation : Prop :=
  (∀ s : State,
    (s.st = .accum → exec .rxError s = .next { s with res := .io, st := .done }) ∧
    (s.st ≠ .accum → exec .rxError s = .next s)) ∧
    (∀ w : StepWord, w.extractLsb' 8 3 = 0b110#3 → decode (.word w) = .ok .rxError) ∧
    assemble "rxerr".toList = .ok [.word 0x600#11]

/-- A step word with op = 111 is refused (R84). -/
def Obligations.ReservedOpIsRefused : Prop :=
  (∀ w : StepWord, w.extractLsb' 8 3 = 0b111#3 → decode (.word w) = .ok .reserved111) ∧
    ∀ s : State, exec .reserved111 s = .refused .reservedOp

/-- A valid control frame on an armed block ends in ACK, NACK or ILLEGAL by its sentinel, at its sixth byte
(42_validator.md R163, 41_reassembler.md R127, 30_encoding.md R90, 60_exceptions.md R205, 60_exceptions.md R206,
notes/assumptions/5.md). -/
def Obligations.ControlFramesGiveTheirResult : Prop :=
  ∀ (len lo hi : Byte) (s : State), s.Armed →
    (Instr.wellFormed (.frameAck len lo hi) = true →
      exec (.frameAck len lo hi) s =
        .next { s with buf := cellsOf [0x02#8], n := 1, held := [0x03#8, len, 0x00#8, lo, hi] } ∧
      Host.Core.run Sys2Proof.core 6 { s with stream := [encode (.frameAck len lo hi)] } =
        .next { s with stream := [], buf := cellsOf [0x02#8, 0x03#8, len, 0x00#8, lo, hi], n := 6, st := .done,
                       res := .ack }) ∧
    (Instr.wellFormed (.frameNack len lo hi) = true →
      exec (.frameNack len lo hi) s =
        .next { s with buf := cellsOf [0x02#8], n := 1, held := [0x03#8, len, 0xFF#8, lo, hi] } ∧
      Host.Core.run Sys2Proof.core 6 { s with stream := [encode (.frameNack len lo hi)] } =
        .next { s with stream := [], buf := cellsOf [0x02#8, 0x03#8, len, 0xFF#8, lo, hi], n := 6, st := .done,
                       res := .nack }) ∧
    (Instr.wellFormed (.frameIllegal len lo hi) = true →
      exec (.frameIllegal len lo hi) s =
        .next { s with buf := cellsOf [0x02#8], n := 1, held := [0x03#8, len, 0x30#8, lo, hi] } ∧
      Host.Core.run Sys2Proof.core 6 { s with stream := [encode (.frameIllegal len lo hi)] } =
        .next { s with stream := [], buf := cellsOf [0x02#8, 0x03#8, len, 0x30#8, lo, hi], n := 6, st := .done,
                       res := .illegal })

/-- A well-formed data frame ends in DATA, a bad header in FRAMING, a bad checksum in CHECKSUM, at its last byte
(42_validator.md R161, 42_validator.md R162, 42_validator.md R163, 41_reassembler.md R129, 30_encoding.md R90,
notes/assumptions/5.md). -/
def Obligations.DataAndBadFramesGiveTheirResult : Prop :=
  ∀ (start addr len cmd : Byte) (p : List Byte) (lo hi : Byte) (s : State), s.Armed →
    (Instr.wellFormed (.frameData len cmd p lo hi) = true →
      exec (.frameData len cmd p lo hi) s =
        .next { s with buf := cellsOf [0x02#8], n := 1, held := [0x03#8, len, cmd] ++ p ++ [lo, hi] } ∧
      Host.Core.run Sys2Proof.core (6 + p.length) { s with stream := [encode (.frameData len cmd p lo hi)] } =
        .next { s with stream := [], buf := cellsOf ([0x02#8, 0x03#8, len, cmd] ++ p ++ [lo, hi]),
                       n := BitVec.ofNat 8 (6 + p.length), st := .done, res := .data }) ∧
    (Instr.wellFormed (.frameBadHeader start addr len cmd p lo hi) = true →
      exec (.frameBadHeader start addr len cmd p lo hi) s =
        .next { s with buf := cellsOf [start], n := 1, held := [addr, len, cmd] ++ p ++ [lo, hi] } ∧
      Host.Core.run Sys2Proof.core (6 + p.length)
          { s with stream := [encode (.frameBadHeader start addr len cmd p lo hi)] } =
        .next { s with stream := [], buf := cellsOf ([start, addr, len, cmd] ++ p ++ [lo, hi]),
                       n := BitVec.ofNat 8 (6 + p.length), st := .done, res := .framing }) ∧
    (Instr.wellFormed (.frameBadCrc len cmd p lo hi) = true →
      exec (.frameBadCrc len cmd p lo hi) s =
        .next { s with buf := cellsOf [0x02#8], n := 1, held := [0x03#8, len, cmd] ++ p ++ [lo, hi] } ∧
      Host.Core.run Sys2Proof.core (6 + p.length) { s with stream := [encode (.frameBadCrc len cmd p lo hi)] } =
        .next { s with stream := [], buf := cellsOf ([0x02#8, 0x03#8, len, cmd] ++ p ++ [lo, hi]),
                       n := BitVec.ofNat 8 (6 + p.length), st := .done, res := .checksum })

/-- The bytes of a frame that arrives while rx_ready = 0 wait with the environment, in order (10_state.md R36,
20_memory.md R65, notes/assumptions/4.md, notes/assumptions/5.md). -/
def Obligations.FrameBytesWaitWhileNotReady : Prop :=
  ∀ (i : Instr) (bytes : List Byte) (s : State), encode i = .line bytes → s.st ≠ .accum →
    exec i s = .next { s with held := s.held ++ bytes }

/-- Held bytes and a frame's bytes equal their RX_BYTE words, step for step, under every interleaving with host words
(41_reassembler.md R123, 41_reassembler.md R130, 30_encoding.md R90, 10_state.md R36, 70_reset_and_hazards.md R236,
notes/assumptions/4.md, notes/assumptions/5.md, notes/assumptions/27.md). -/
def Obligations.FrameEqualsItsRxByteSteps : Prop :=
  (∀ (i : Instr) (bytes : List Byte) (k : Nat) (s t : State), encode i = .line bytes →
    s.st = .accum → s.viol = false → 1 ≤ k → k ≤ (s.held ++ bytes).length →
    Host.Core.run Sys2Proof.core k
        { s with held := [], stream := ((s.held ++ bytes).take k).map (fun b => encode (.rxByte b)) } = .next t →
    Host.Core.run Sys2Proof.core k { s with stream := [encode i] } =
        .next { t with held := (s.held ++ bytes).drop k } ∧
      (t.st ≠ .accum → ∀ j, Host.Core.run Sys2Proof.core (k + j) { s with stream := [encode i] } =
        .next { t with held := (s.held ++ bytes).drop k })) ∧
  ∀ (xs rest : List Input) (more : List Byte) (s t : State), s.held = [] → s.viol = false → t.viol = false →
    (∀ x ∈ xs, (∀ bytes, x ≠ .line bytes) ∧ decode x ≠ .ok .attemptEnd ∧ decode x ≠ .ok .rxError) →
    Host.Core.run Sys2Proof.core xs.length { s with stream := xs ++ rest } = .next t →
    Host.Core.run Sys2Proof.core xs.length { s with held := rxOperands xs ++ more, stream := asTurns xs ++ rest } =
      .next { t with held := more }

/-- A frame row changes at most one cell, n, st, res and the held bytes (20_memory.md R51, 41_reassembler.md R123,
notes/assumptions/5.md). -/
def Obligations.FrameRowsLeaveTheRestAlone : Prop :=
  ∀ (i : Instr) (bytes : List Byte) (s t : State), encode i = .line bytes → exec i s = .next t →
    s.n.toNat ≤ t.n.toNat ∧ t.n.toNat ≤ s.n.toNat + 1 ∧
    (∀ a, a < s.n.toNat ∨ t.n.toNat ≤ a → memRead t.buf a = memRead s.buf a) ∧
    t.crc = s.crc ∧ t.att = s.att ∧ t.viol = s.viol ∧ t.maxAttempts = s.maxAttempts ∧ t.stream = s.stream

/-- Step words and frames written out from the tables decode to their rows (30_encoding.md R82, 95_test_vectors.md
section 4). -/
def Obligations.StepWordsDecodeAsTabulated : Prop :=
  decode (.word 0b00000000000#11) = .ok .nop ∧ decode (.word 0b00100000000#11) = .ok .crcInit ∧
    decode (.word 0b01000110000#11) = .ok (.crcByte 0x30#8) ∧ decode (.word 0b01110100101#11) = .ok .arm ∧
    decode (.word 0b10010000010#11) = .ok (.rxByte 0x82#8) ∧ decode (.word 0b10100000000#11) = .ok .attemptEnd ∧
    decode (.word 0b11000000000#11) = .ok .rxError ∧ decode (.word 0b11111111111#11) = .ok .reserved111 ∧
    decode (.line [0x02#8, 0x03#8, 0x00#8, 0x00#8, 0x12#8, 0xD6#8]) = .ok (.frameAck 0x00#8 0x12#8 0xD6#8) ∧
    decode (.line [0x02#8, 0x03#8, 0x00#8, 0xFF#8, 0x6A#8, 0xD9#8]) = .ok (.frameNack 0x00#8 0x6A#8 0xD9#8) ∧
    decode (.line [0x02#8, 0x03#8, 0x00#8, 0x30#8, 0x91#8, 0xE7#8]) = .ok (.frameIllegal 0x00#8 0x91#8 0xE7#8) ∧
    decode (.line [0x02#8, 0x03#8, 0x07#8, 0x1C#8, 0x61#8, 0xFE#8, 0xF1#8]) =
      .ok (.frameData 0x07#8 0x1C#8 [0x61#8] 0xFE#8 0xF1#8) ∧
    decode (.line [0x01#8, 0x03#8, 0x06#8, 0x30#8, 0x41#8, 0xB3#8]) =
      .ok (.frameBadHeader 0x01#8 0x03#8 0x06#8 0x30#8 [] 0x41#8 0xB3#8) ∧
    decode (.line [0x02#8, 0x03#8, 0x06#8, 0x30#8, 0x41#8, 0xB4#8]) =
      .ok (.frameBadCrc 0x06#8 0x30#8 [] 0x41#8 0xB4#8)

/-- Decoding the encoding of a well-formed instruction gives it back (30_encoding.md R81, 30_encoding.md R82,
30_encoding.md R70, 30_encoding.md R71). -/
def Obligations.DecodeInvertsEncode : Prop :=
  ∀ i : Instr, i.wellFormed = true → decode (encode i) = .ok i

/-- What an input decodes to is well formed and encodes to that input, ignored bits cleared (30_encoding.md R83,
30_encoding.md R85, 30_encoding.md R70). -/
def Obligations.EveryDecodedInputIsItsInstruction : Prop :=
  ∀ (x : Input) (i : Instr), decode x = .ok i → i.wellFormed = true ∧
    (∀ bytes, x = .line bytes → encode i = .line bytes) ∧
    (x = .rst → encode i = .rst) ∧
    (∀ w, x = .word w →
      ((w.extractLsb' 8 3 = 0b010#3 ∨ w.extractLsb' 8 3 = 0b100#3) → encode i = .word w) ∧
      (w.extractLsb' 8 3 ≠ 0b010#3 → w.extractLsb' 8 3 ≠ 0b100#3 → encode i = .word (w &&& 0x700#11)))

/-- Line bytes decode to a frame row exactly when they complete at their last byte and not before (41_reassembler.md
R120, 41_reassembler.md R127, 41_reassembler.md R129, notes/assumptions/7.md). -/
def Obligations.FrameDecodesExactlyWhenItCompletes : Prop :=
  ∀ bytes : List Byte,
    (∃ i, decode (.line bytes) = .ok i) ↔
      6 ≤ bytes.length ∧
        ∀ k, k ≤ bytes.length → (bufferComplete (bytes.take k) = true ↔ k = bytes.length)

/-- A step takes the next input of the stream and executes the instruction it decodes to (30_encoding.md R90,
70_reset_and_hazards.md R236, notes/assumptions/3.md, notes/assumptions/6.md, notes/assumptions/27.md). -/
def Obligations.StepRunsTheDecodedInstruction : Prop :=
  ∀ (s : State) (x : Input) (rest : List Input), s.stream = x :: rest →
    (∀ i, decode x = .ok i →
      s.st ≠ .accum ∨ s.held = [] ∨ ((∀ b, i ≠ .rxByte b) ∧ i ≠ .attemptEnd ∧ i ≠ .rxError) →
      step s = exec i { s with stream := rest }) ∧
    (∀ bytes, decode x = .error (.notOneFrame bytes) → step s = receive bytes { s with stream := rest })

/-- With no input presented the block holds its state (60_exceptions.md R220, notes/assumptions/3.md). -/
def Obligations.BlockHoldsItsStateBetweenWords : Prop :=
  ∀ s : State, s.stream = [] → (s.st = .accum → s.held = []) → step s = .next s

/-- An input placed by withFetchWord is what the very next step runs (30_encoding.md R90, notes/assumptions/3.md,
notes/assumptions/27.md). -/
def Obligations.FetchWordRunsNext : Prop :=
  ∀ (s : State) (nbits w : Nat) (i : Instr), decodeTableWord nbits w = some i →
    (s.st ≠ .accum ∨ s.held = [] ∨ ((∀ b, i ≠ .rxByte b) ∧ i ≠ .attemptEnd ∧ i ≠ .rxError) →
      step (s.withFetchWord nbits w) = exec i s) ∧
    (s.st = .accum → ((∃ b, i = .rxByte b) ∨ i = .attemptEnd ∨ i = .rxError) →
      step (s.withFetchWord nbits w) = exec i { s with held := [] })

/-- The reset state meets the state invariants (10_state.md R34, 10_state.md R27, 00_scope.md R5). -/
def Obligations.ResetStateMeetsTheInvariant : Prop :=
  State.reset.Inv ∧ State.reset.ResultExplained

/-- Every step keeps the state invariants (10_state.md R34, 10_state.md R25, 10_state.md R27, 10_state.md R28,
20_memory.md R59, 00_scope.md R5). -/
def Obligations.StepKeepsTheInvariant : Prop :=
  ∀ s t : State, s.Inv → step s = .next t → t.Inv

/-- The result of a validation stays what validation gives of the bytes in the buffer (10_state.md R28,
60_exceptions.md R208, 42_validator.md R160). -/
def Obligations.StepKeepsTheResultExplained : Prop :=
  ∀ s t : State, s.Inv → s.ResultExplained → step s = .next t → t.ResultExplained

/-- Every step keeps the buffer in canonical form (20_memory.md R50, 20_memory.md R51, notes/assumptions/10.md). -/
def Obligations.StepKeepsTheBufferCanonical : Prop :=
  ∀ s t : State, Memory.wf s.buf → step s = .next t → Memory.wf t.buf

/-- From an invariant state a step answers a next state exactly when the driver keeps its duties (41_reassembler.md
R126, 30_encoding.md R84, 70_reset_and_hazards.md R236). -/
def Obligations.StepAnswersExactlyWhenDutiesAreKept : Prop :=
  ∀ s : State, s.Inv → ((∃ t, step s = .next t) ↔ keepsDuty s)

/-- MAX_ATTEMPTS does not change while the block runs (70_reset_and_hazards.md R232, 00_scope.md R5,
notes/assumptions/2.md). -/
def Obligations.ParameterNeverChanges : Prop :=
  ∀ s t : State, step s = .next t → t.maxAttempts = s.maxAttempts

/-- The CRC16 generator and the synchronizer share no state: neither writes the other's (40_crc16.md R106, 10_state.md
R23, 10_state.md R35). -/
def Obligations.UnitsShareNoState : Prop :=
  (∀ (i : Instr) (s t : State), (i = .crcInit ∨ ∃ b, i = .crcByte b) → exec i s = .next t →
      t = { s with crc := t.crc } ∧
      ∀ s' t' : State, s'.crc = s.crc → exec i s' = .next t' → t'.crc = t.crc) ∧
    ∀ (i : Instr) (s t : State), i ≠ .crcInit → (∀ b, i ≠ .crcByte b) → i ≠ .reset → exec i s = .next t →
      t.crc = s.crc

/-- No synchronizer operation reads crc: two runs that differ in crc differ in crc alone (40_crc16.md R106,
10_state.md R35). -/
def Obligations.SynchronizerNeverReadsCrc : Prop :=
  ∀ (i : Instr) (c : U16) (s : State), i ≠ .crcInit → (∀ b, i ≠ .crcByte b) → i ≠ .reset →
    (∀ t, exec i s = .next t → exec i { s with crc := c } = .next { t with crc := c }) ∧
    (∀ f, exec i s = .fault f → exec i { s with crc := c } = .fault f) ∧
    (∀ r, exec i s = .refused r → exec i { s with crc := c } = .refused r)

/-- The block leaves DONE only by ARM or reset, and until then keeps the result and its diagnostics (60_exceptions.md
R212, 60_exceptions.md R208, 60_exceptions.md R210). -/
def Obligations.ResultLeftOnlyByArmOrReset : Prop :=
  ∀ (i : Instr) (s t : State), s.st = .done → i ≠ .arm → i ≠ .reset → exec i s = .next t →
    t.st = .done ∧ t.res = s.res ∧ t.n = s.n ∧ t.buf = s.buf ∧ t.att = s.att ∧ t.viol = s.viol

/-- viol is set only by ARM in ACCUM and cleared only by reset (10_state.md R29, 70_reset_and_hazards.md R234). -/
def Obligations.ViolationIsStickyUntilReset : Prop :=
  ∀ (i : Instr) (s t : State), exec i s = .next t →
    (i = .reset → t.viol = false) ∧ (i = .arm → s.st = .accum → t.viol = true) ∧
    (i ≠ .reset → ¬ (i = .arm ∧ s.st = .accum) → t.viol = s.viol)

/-- Beside ARM and RESET, res and st change only in the step that moves ACCUM to DONE, together (60_exceptions.md
R211, 60_exceptions.md R213, 10_state.md R28). -/
def Obligations.ResultEntryIsPrecise : Prop :=
  ∀ (i : Instr) (s t : State), s.Inv → i ≠ .arm → i ≠ .reset → exec i s = .next t →
    t.res ≠ s.res ∨ t.st ≠ s.st →
    s.st = .accum ∧ t.st = .done ∧ t.res ≠ .none ∧ rxReady s = true ∧ rxReady t = false ∧ doneFlag s = false ∧
      doneFlag t = true ∧ t.crc = s.crc ∧ t.viol = s.viol

/-- att fits in ceil(log2(MAX_ATTEMPTS + 1)) bits and att_out shows it whole (10_state.md R27, 60_exceptions.md R216,
00_scope.md R5). -/
def Obligations.AttemptCounterFitsItsWidth : Prop :=
  ∀ s : State, s.Inv → s.att < 2 ^ attWidth s.maxAttempts ∧ (attOut s).toNat = s.att ∧
    ∀ w, s.maxAttempts < 2 ^ w → attWidth s.maxAttempts ≤ w

/-- Whatever the interleaving, an accumulation ends once the attempts left have ended (60_exceptions.md R202,
41_reassembler.md R124, 70_reset_and_hazards.md R236, 30_encoding.md R90, 10_state.md R29). -/
def Obligations.EnoughAttemptsEndEveryAccumulation : Prop :=
  ∀ (k : Nat) (s t : State), s.Safe → s.st = .accum →
    (∀ x ∈ s.stream, decode x ≠ .ok .arm ∧ decode x ≠ .ok .reset) →
    s.maxAttempts - s.att ≤ s.stream.countP (fun x => decide (decode x = .ok .attemptEnd)) →
    Host.Core.run Sys2Proof.core k s = .next t → t.stream = [] → t.st = .done ∧ t.res ≠ .none

/-- From an armed block MAX_ATTEMPTS ended attempts and nothing else give TIMEOUT (60_exceptions.md R202,
41_reassembler.md R124, 95_test_vectors.md S9). -/
def Obligations.SilentDeviceTimesOut : Prop :=
  ∀ (s : State) (rest : List Input), s.Armed → 1 ≤ s.maxAttempts →
    Host.Core.run Sys2Proof.core s.maxAttempts
        { s with stream := List.replicate s.maxAttempts (encode .attemptEnd) ++ rest } =
      .next { s with stream := rest, att := s.maxAttempts, res := .timeout, st := .done }

/-- A frame whose length field is in 1..5 never completes (R128). -/
def Obligations.ShortLengthByteNeverCompletes : Prop :=
  ∀ (i : Instr) (len : Byte) (s t : State), s.Inv → s.st = .accum → cellAt s.buf 2 = some len →
    1 ≤ len.toNat → len.toNat ≤ 5 → exec i s = .next t →
    (i ≠ .attemptEnd → i ≠ .rxError → i ≠ .arm → i ≠ .reset → t.st = .accum ∧ cellAt t.buf 2 = some len) ∧
    (i = .attemptEnd → t.st = .done → t.res = .timeout) ∧ (i = .rxError → t.st = .done → t.res = .io)

/-- A frame completes at 6 bytes for length field 0 and at L bytes for L in 6..255, never otherwise (R127, R129). -/
def Obligations.FrameCompletesAtItsLength : Prop :=
  ∀ (b len : Byte) (s t : State), s.Inv → s.st = .accum → exec (.rxByte b) s = .next t → cellAt t.buf 2 = some len →
    (len = 0x00#8 → (t.st = .done ↔ t.n = 6)) ∧ (6 ≤ len.toNat → (t.st = .done ↔ t.n = len))

/-- Once 255 bytes are buffered without completion, every byte is consumed and discarded (41_reassembler.md R132,
10_state.md R25). -/
def Obligations.FullBufferDiscardsAndNeverCompletes : Prop :=
  ∀ (b : Byte) (s : State), s.Inv → s.st = .accum → s.n.toNat = 255 →
    exec (.rxByte b) s = .next s ∧
      ∃ len, cellAt s.buf 2 = some len ∧ len ≠ 0x00#8 ∧ len ≠ 0xFF#8

/-- crc_shift8 is eight halvings with a conditional exclusive-or, and crc_update applies it to the accumulator with
the byte in its low half (R100, R101). -/
def Obligations.CrcUpdateIsEightConditionalShifts : Prop :=
  (∀ c : U16, (crcShift8 c).toNat =
      (fun x : Nat => if x % 2 = 1 then (x / 2) ^^^ 0x8408 else x / 2)^[8] c.toNat) ∧
    ∀ (c : U16) (b : Byte), (crcUpdate c b).toNat =
      (fun x : Nat => if x % 2 = 1 then (x / 2) ^^^ 0x8408 else x / 2)^[8] (c.toNat ^^^ b.toNat)

/-- crc16 is the fold of crc_update from 0x0000, and 0 of the empty sequence (R102, R107). -/
def Obligations.Crc16FoldsFromZero : Prop :=
  (∀ bytes : List Byte, crc16 bytes = bytes.foldl crcUpdate 0x0000#16) ∧ crc16 [] = 0x0000#16

/-- The table form of the byte update equals the eight iterations (40_crc16.md R110). -/
def Obligations.CrcTableFormAgrees : Prop :=
  (∀ (c : U16) (b : Byte), crcUpdate c b =
      (c >>> 8) ^^^ crcShift8 ((c ^^^ b.setWidth 16) &&& 0x00FF#16)) ∧
    (List.range 16).map (fun i => crcShift8 (BitVec.ofNat 16 i)) =
      [0x0000#16, 0x1189#16, 0x2312#16, 0x329B#16, 0x4624#16, 0x57AD#16, 0x6536#16, 0x74BF#16] ++
        [0x8C48#16, 0x9DC1#16, 0xAF5A#16, 0xBED3#16, 0xCA6C#16, 0xDBE5#16, 0xE97E#16, 0xF8F7#16]

/-- crc_shift8 is linear and a bijection, so crc16 is linear on sequences of equal length (R109). -/
def Obligations.CrcIsLinearAndBijective : Prop :=
  (∀ a b : U16, crcShift8 (a ^^^ b) = crcShift8 a ^^^ crcShift8 b) ∧ Function.Bijective crcShift8 ∧
    ∀ xs ys : List Byte, xs.length = ys.length →
      crc16 (List.zipWith (fun x y => x ^^^ y) xs ys) = crc16 xs ^^^ crc16 ys

/-- Zero bytes at the start of a sequence do not change its checksum (R108). -/
def Obligations.LeadingZeroBytesAreInvisible : Prop :=
  (∀ (k : Nat) (bytes : List Byte), crc16 (List.replicate k 0x00#8 ++ bytes) = crc16 bytes) ∧
    crc16 [0x00#8, 0x00#8] = 0x0000#16

/-- Two bytes after a sequence make its checksum 0 exactly when they are its little-endian checksum (R111). -/
def Obligations.ChecksumResidueIsZero : Prop :=
  ∀ (bytes : List Byte) (lo hi : Byte),
    crc16 (bytes ++ [lo, hi]) = 0x0000#16 ↔ lo.toNat + 256 * hi.toNat = (crc16 bytes).toNat

/-- crc_out is crc16 of the bytes folded since CRC_INIT, whatever synchronizer operations run between (40_crc16.md
R105, 40_crc16.md R106, 70_reset_and_hazards.md R239, 30_encoding.md R90). -/
def Obligations.GeneratorComputesCrc16UnderInterleaving : Prop :=
  ∀ (k : Nat) (xs : List Input) (s t : State), s.stream = encode .crcInit :: xs →
    (∀ x ∈ xs, decode x ≠ .ok .crcInit ∧ decode x ≠ .ok .reset) →
    Host.Core.run Sys2Proof.core k s = .next t → t.stream = [] → t.viol = false →
    crcOut t = crc16 (crcOperands xs)

/-- Validation checks the header, then the checksum, then classifies by length and sentinel (R160, R209). -/
def Obligations.ValidationChecksInOrder : Prop :=
  ∀ (start addr len cmd : Byte) (p : List Byte) (lo hi : Byte),
    validate ([start, addr, len, cmd] ++ p ++ [lo, hi]) =
      if start ≠ 0x02#8 ∨ addr ≠ 0x03#8 then .framing
      else if (crc16 ([start, addr, len, cmd] ++ p)).toNat ≠ lo.toNat + 256 * hi.toNat then .checksum
      else if p = [] ∧ cmd = 0x00#8 then .ack
      else if p = [] ∧ cmd = 0xFF#8 then .nack
      else if p = [] ∧ cmd = 0x30#8 then .illegal
      else .data

/-- The checksum check passes exactly when crc16 of the whole frame is 0 (42_validator.md R162, 40_crc16.md R111). -/
def Obligations.ChecksumPassesExactlyOnZeroResidue : Prop :=
  ∀ raw : List Byte, 6 ≤ raw.length → raw[0]? = some 0x02#8 → raw[1]? = some 0x03#8 →
    (validate raw ≠ .checksum ↔ crc16 raw = 0x0000#16)

/-- encode emits header, length, command, payload and the little-endian checksum, and refuses a payload too long
(R168). -/
def Obligations.EncoderEmitsTheFrame : Prop :=
  ∀ (cmd : Byte) (p : List Byte),
    (255 < 6 + p.length → encodeFrame cmd p = .error .payloadTooLong) ∧
    (6 + p.length ≤ 255 → ∃ lo hi : Byte,
      encodeFrame cmd p = .ok ([0x02#8, 0x03#8, BitVec.ofNat 8 (6 + p.length), cmd] ++ p ++ [lo, hi]) ∧
      lo.toNat + 256 * hi.toNat =
        (crc16 ([0x02#8, 0x03#8, BitVec.ofNat 8 (6 + p.length), cmd] ++ p)).toNat)

/-- Feeding encode(cmd, p) to an armed block completes at its last byte and gives back cmd and p (R169). -/
def Obligations.EncodedFrameRoundTrips : Prop :=
  ∀ (cmd : Byte) (p f : List Byte) (s : State), encodeFrame cmd p = .ok f → s.Armed →
    (∃ t : State, feedBytes f s = .next t ∧
      t = { s with buf := cellsOf f, n := BitVec.ofNat 8 (6 + p.length), st := .done, res := t.res } ∧
      t.res = (if p = [] ∧ cmd = 0x00#8 then .ack else if p = [] ∧ cmd = 0xFF#8 then .nack
               else if p = [] ∧ cmd = 0x30#8 then .illegal else .data) ∧
      commandCode t = .ok cmd ∧ payloadView t = .ok p ∧ (t.res = .data → dataView t = .ok (cmd :: p))) ∧
    documentDecode f = .ok (cmd, p)

/-- One byte of an encoded frame changed gives FRAMING, CHECKSUM, validate of a shorter prefix, or no completion, by
its index (42_validator.md R170, 42_validator.md R161, 40_crc16.md R109, 40_crc16.md R111, 41_reassembler.md R128,
41_reassembler.md R129). -/
def Obligations.SingleByteCorruptionOutcomes : Prop :=
  ∀ (cmd e : Byte) (p f : List Byte) (k : Nat) (s : State), encodeFrame cmd p = .ok f → s.Armed → k < f.length →
    f[k]? ≠ some e →
    (k < 2 → documentDecode (f.set k e) = .error .framing ∧
      ∃ t, feedBytes (f.set k e) s = .next t ∧ t.st = .done ∧ t.res = .framing) ∧
    (2 ≤ k → documentDecode (f.set k e) = .error .checksum) ∧
    (3 ≤ k → ∃ t, feedBytes (f.set k e) s = .next t ∧ t.st = .done ∧ t.res = .checksum) ∧
    (k = 2 →
      (e = 0x00#8 → f.length = 6 →
        ∃ t, feedBytes (f.set k e) s = .next t ∧ t.st = .done ∧ t.res = .checksum) ∧
      (e = 0x00#8 → 6 < f.length → ∃ t, feedBytes ((f.set k e).take 6) s = .next t ∧ t.st = .done ∧
        t.res = validate ((f.set k e).take 6)) ∧
      (6 ≤ e.toNat → e.toNat < f.length → ∃ t, feedBytes ((f.set k e).take e.toNat) s = .next t ∧ t.st = .done ∧
        t.res = validate ((f.set k e).take e.toNat)) ∧
      (1 ≤ e.toNat → e.toNat ≤ 5 → ∃ t, feedBytes (f.set k e) s = .next t ∧ t.st = .accum ∧ t.n.toNat = f.length) ∧
      (f.length < e.toNat → ∃ t, feedBytes (f.set k e) s = .next t ∧ t.st = .accum ∧ t.n.toNat = f.length))

/-- On reads without surplus bytes the block and the document's accumulation loop agree (41_reassembler.md R134,
41_reassembler.md R133, 70_reset_and_hazards.md R236, 92_eei_decisions.md D5). -/
def Obligations.BlockAgreesWithTheDocumentLoop : Prop :=
  ∀ (chunks : List (List Byte)) (s : State), s.Armed → 1 ≤ s.maxAttempts → noSurplus [] chunks →
    ∃ (k : Nat) (t : State),
      Host.Core.run Sys2Proof.core k { s with stream := attemptInputs chunks } = .next t ∧ t.stream = [] ∧
      (∀ r buffer attempts, documentLoop s.maxAttempts [] 0 chunks = .ended r buffer attempts →
        t.st = .done ∧ t.res = r ∧ t.att = attempts ∧ t.buf = cellsOf (buffer.take 255)) ∧
      (∀ buffer attempts, documentLoop s.maxAttempts [] 0 chunks = .reading buffer attempts →
        t.st = .accum ∧ t.res = .none ∧ t.att = attempts ∧ t.buf = cellsOf (buffer.take 255))

/-- The status word packs st, res, viol, 0 and n, and reads back as them (10_state.md R33, 10_state.md R24,
30_encoding.md R80). -/
def Obligations.StatusWordShowsTheState : Prop :=
  ∀ s : State,
    (statusWord s).extractLsb' 0 2 =
      (match s.st with | .idle => 0b00#2 | .accum => 0b01#2 | .done => 0b10#2) ∧
    (statusWord s).extractLsb' 2 4 =
      (match s.res with
        | .none => 0x0#4 | .data => 0x1#4 | .ack => 0x2#4 | .nack => 0x3#4 | .illegal => 0x4#4
        | .framing => 0x5#4 | .checksum => 0x6#4 | .timeout => 0x7#4 | .io => 0x8#4) ∧
    (statusWord s).getLsbD 6 = s.viol ∧ (statusWord s).getLsbD 7 = false ∧
    (statusWord s).extractLsb' 8 8 = s.n ∧
    readStatus (statusWord s) = .ok { st := s.st, res := s.res, viol := s.viol, n := s.n }

/-- The read port gives a byte exactly at the indices below n and faults elsewhere (20_memory.md R52, 20_memory.md
R56, 10_state.md R32). -/
def Obligations.ReadPortGivesExactlyTheBufferedBytes : Prop :=
  ∀ s : State, s.Inv →
    (∀ a : Byte, (a.toNat < s.n.toNat → ∃ v, cellAt s.buf a.toNat = some v ∧ rdData a s = .ok v) ∧
      (s.n.toNat ≤ a.toNat → rdData a s = .error (.unwrittenRead a.toNat))) ∧
    (3 ≤ s.n.toNat → ∃ v, cellAt s.buf 2 = some v ∧ lenField s = .ok v) ∧
    (s.n.toNat < 3 → lenField s = .error (.outputHasNoValue .lenField))

/-- crc_rx and crc_calc show the received and the computed checksum from six bytes on (42_validator.md R166,
42_validator.md R162, 20_memory.md R54). -/
def Obligations.ChecksumOutputsShowTheBuffer : Prop :=
  ∀ (s : State) (raw : List Byte), s.Inv → raw.length = s.n.toNat → (∀ i, cellAt s.buf i = raw[i]?) →
    (6 ≤ s.n.toNat → ∃ body lo hi, raw = body ++ [lo, hi] ∧ crcCalc s = .ok (crc16 body) ∧
      ∃ c : U16, crcRx s = .ok c ∧ c.toNat = lo.toNat + 256 * hi.toNat) ∧
    (s.n.toNat < 6 → crcRx s = .error (.outputHasNoValue .crcRx) ∧
      crcCalc s = .error (.outputHasNoValue .crcCalc))

/-- A completed frame's views are its command byte, cell 3, and its payload, cells 4 to n-3; DATA alone has data,
cells 3 to n-3 (42_validator.md R164, 42_validator.md R165, 10_state.md R33, notes/assumptions/26.md). -/
def Obligations.DataViewsOfADeliveredFrame : Prop :=
  ∀ s : State, s.Inv →
    (s.st = .done → s.res.byValidation = true → ∃ (a0 a1 a2 cmd : Byte) (p : List Byte) (lo hi : Byte),
      (∀ i, cellAt s.buf i = ([a0, a1, a2, cmd] ++ p ++ [lo, hi])[i]?) ∧ s.n.toNat = 6 + p.length ∧
      commandCode s = .ok cmd ∧ payloadView s = .ok p ∧
      (s.res = .data → dataView s = .ok (cmd :: p) ∧
        dataLen s = .ok (BitVec.ofNat 8 (p.length + 1)) ∧ payloadLen s = .ok (BitVec.ofNat 8 p.length))) ∧
    (¬ (s.st = .done ∧ s.res = .data) →
      dataLen s = .error (.outputHasNoValue .dataLen) ∧ payloadLen s = .error (.outputHasNoValue .payloadLen) ∧
      ∃ f, dataView s = .error f) ∧
    (¬ (s.st = .done ∧ s.res.byValidation = true) →
      commandCode s = .error (.outputHasNoValue .frameView) ∧ payloadView s = .error (.outputHasNoValue .frameView))

/-- Operations and pseudo-instructions assemble to their step words for every byte and operand list; immediates are
0..255 (30_encoding.md R87, 30_encoding.md R88, 42_validator.md R168, notes/assumptions/20.md). -/
def Obligations.AssemblerFollowsTheSyntaxTable : Prop :=
  (∀ (b : Byte) (bs : List Byte),
    assembleOperation "nop".toList [] = .ok [.word 0x000#11] ∧
    assembleOperation "crc.init".toList [] = .ok [.word 0x100#11] ∧
    assembleOperation "crc.byte".toList [b] = .ok [.word (0x200#11 + b.setWidth 11)] ∧
    assembleOperation "arm".toList [] = .ok [.word 0x300#11] ∧
    assembleOperation "rx".toList [b] = .ok [.word (0x400#11 + b.setWidth 11)] ∧
    assembleOperation "attempt".toList [] = .ok [.word 0x500#11] ∧
    assembleOperation "rxerr".toList [] = .ok [.word 0x600#11] ∧
    assembleOperation "reset".toList [] = .ok [.rst] ∧
    assembleOperation "crc.bytes".toList (b :: bs) =
      .ok ((b :: bs).map (fun x => .word (0x200#11 + x.setWidth 11))) ∧
    assembleOperation "crc.seq".toList (b :: bs) =
      .ok (.word 0x100#11 :: (b :: bs).map (fun x => .word (0x200#11 + x.setWidth 11))) ∧
    assembleOperation "rx.bytes".toList (b :: bs) =
      .ok ((b :: bs).map (fun x => .word (0x400#11 + x.setWidth 11))) ∧
    assembleOperation "rx.attempt".toList bs =
      .ok (bs.map (fun x => .word (0x400#11 + x.setWidth 11)) ++ [.word 0x500#11]) ∧
    (∀ f, encodeFrame b bs = .ok f → assembleOperation "rx.frame".toList (b :: bs) =
      .ok (f.map (fun x => .word (0x400#11 + x.setWidth 11)))) ∧
    (255 < 6 + bs.length → assembleOperation "rx.frame".toList (b :: bs) = .error .payloadTooLong)) ∧
  (∀ v : Nat,
    (v ≤ 255 → parseImmediate (Nat.toDigits 10 v) = .ok (BitVec.ofNat 8 v) ∧
      parseImmediate ('0' :: 'x' :: Nat.toDigits 16 v) = .ok (BitVec.ofNat 8 v)) ∧
    (v ≤ 15 → parseImmediate ('0' :: 'x' :: '0' :: Nat.toDigits 16 v) = .ok (BitVec.ofNat 8 v)) ∧
    (255 < v → parseImmediate (Nat.toDigits 10 v) = .error .badImmediate ∧
      parseImmediate ('0' :: 'x' :: Nat.toDigits 16 v) = .error .badImmediate)) ∧
  (∀ (cs : List Char) (b : Byte), parseImmediate cs = .ok b →
    digitsValue 10 0 cs = some b.toNat ∨
      ∃ ds, cs = '0' :: 'x' :: ds ∧ (ds.length = 1 ∨ ds.length = 2) ∧ digitsValue 16 0 ds = some b.toNat) ∧
  (∀ line comment : List Char, assembleLine (line ++ ';' :: comment) = assembleLine line) ∧
  assemble "nop".toList = .ok [.word 0x000#11] ∧ assemble "crc.init".toList = .ok [.word 0x100#11] ∧
    assemble "crc.byte 0x30 ; fold".toList = .ok [.word 0x230#11] ∧ assemble "arm".toList = .ok [.word 0x300#11] ∧
    assemble "rx 130".toList = .ok [.word 0x482#11] ∧ assemble "attempt".toList = .ok [.word 0x500#11] ∧
    assemble "rxerr".toList = .ok [.word 0x600#11] ∧ assemble "reset".toList = .ok [.rst] ∧
    assemble "crc.bytes 1, 0x02".toList = .ok [.word 0x201#11, .word 0x202#11] ∧
    assemble "crc.seq 0x02, 3".toList = .ok [.word 0x100#11, .word 0x202#11, .word 0x203#11] ∧
    assemble "rx.bytes 0x02, 3".toList = .ok [.word 0x402#11, .word 0x403#11] ∧
    assemble "rx.attempt 0x02, 3".toList = .ok [.word 0x402#11, .word 0x403#11, .word 0x500#11] ∧
    assemble "rx.attempt".toList = .ok [.word 0x500#11] ∧
    assemble "rx.frame 0".toList =
      .ok [.word 0x402#11, .word 0x403#11, .word 0x406#11, .word 0x400#11, .word 0x4C2#11, .word 0x482#11] ∧
    assemble "rx 256".toList = .error .badImmediate

/-- Bytes the environment holds keep their order, and are presented one a step while the block is ready (10_state.md
R36, 20_memory.md R65, 30_encoding.md R90, 70_reset_and_hazards.md R236, notes/assumptions/4.md,
notes/assumptions/27.md). -/
def Obligations.HeldBytesAreDeliveredWhenReady : Prop :=
  (∀ (i : Instr) (x : Input) (rest : List Input) (s t : State), s.stream = x :: rest → decode x = .ok i →
    rxReady s = false → step s = .next t →
    t.held = s.held ++ (match encode i with | .line bytes => bytes | .word _ => [] | .rst => [])) ∧
  ∀ (b : Byte) (bs : List Byte) (s : State), rxReady s = true → s.held = b :: bs →
    (s.stream = [] → step s = exec (.rxByte b) { s with held := bs }) ∧
    (∀ (x : Input) (rest : List Input), s.stream = x :: rest →
      (∃ c, decode x = .ok (.rxByte c)) ∨ decode x = .ok .attemptEnd ∨ decode x = .ok .rxError →
      step s = exec (.rxByte b) { s with held := bs }) ∧
    (∀ (bytes : List Byte) (rest : List Input), s.stream = .line bytes :: rest →
      step s = exec (.rxByte b) { s with held := bs ++ bytes, stream := rest })
end

