-- ==== Sys2Proof/Laws/Config.lean ====
section
/-! SUPPORT. The value of each parameter (00_scope.md R4), and the one fact about MAX_ATTEMPTS (R5). -/

set_option Elab.async false

namespace Sys2Proof

@[simp] theorem config_startCode : config.startCode = 0x02#8 := rfl
@[simp] theorem config_periphAddr : config.periphAddr = 0x03#8 := rfl
@[simp] theorem config_crcPoly : config.crcPoly = 0x8408#16 := rfl
@[simp] theorem config_crcInit : config.crcInit = 0x0000#16 := rfl
@[simp] theorem config_minFrame : config.minFrame = 6 := rfl
@[simp] theorem config_maxFrame : config.maxFrame = 255 := rfl
@[simp] theorem config_ctrlLen : config.ctrlLen = 0x00#8 := rfl
@[simp] theorem config_ackSentinel : config.ackSentinel = 0x00#8 := rfl
@[simp] theorem config_nackSentinel : config.nackSentinel = 0xFF#8 := rfl
@[simp] theorem config_illegalSentinel : config.illegalSentinel = 0x30#8 := rfl
@[simp] theorem config_headerLen : config.headerLen = 4 := rfl
@[simp] theorem config_crcLen : config.crcLen = 2 := rfl

theorem one_le_maxAttempts : 1 ≤ Config.maxAttempts := Nat.succ_le_succ (Nat.zero_le _)

end Sys2Proof
end

