-- ==== Sys2Proof/Laws/State.lean ====
section
/-! SUPPORT. One lemma per field per update of the state: what each named update writes and what it leaves. -/

set_option Elab.async false

namespace Sys2Proof.Machine

@[simp] theorem setCrc_crc (c : U16) (s : State) : (setCrc c s).crc = c := rfl
@[simp] theorem setCrc_st (c : U16) (s : State) : (setCrc c s).st = s.st := rfl
@[simp] theorem setCrc_n (c : U16) (s : State) : (setCrc c s).n = s.n := rfl
@[simp] theorem setCrc_buf (c : U16) (s : State) : (setCrc c s).buf = s.buf := rfl
@[simp] theorem setCrc_att (c : U16) (s : State) : (setCrc c s).att = s.att := rfl
@[simp] theorem setCrc_res (c : U16) (s : State) : (setCrc c s).res = s.res := rfl
@[simp] theorem setCrc_viol (c : U16) (s : State) : (setCrc c s).viol = s.viol := rfl
@[simp] theorem setCrc_maxAttempts (c : U16) (s : State) : (setCrc c s).maxAttempts = s.maxAttempts := rfl
@[simp] theorem setCrc_stream (c : U16) (s : State) : (setCrc c s).stream = s.stream := rfl
@[simp] theorem setCrc_held (c : U16) (s : State) : (setCrc c s).held = s.held := rfl

@[simp] theorem enterResult_crc (r : Result) (s : State) : (enterResult r s).crc = s.crc := rfl
@[simp] theorem enterResult_st (r : Result) (s : State) : (enterResult r s).st = .done := rfl
@[simp] theorem enterResult_n (r : Result) (s : State) : (enterResult r s).n = s.n := rfl
@[simp] theorem enterResult_buf (r : Result) (s : State) : (enterResult r s).buf = s.buf := rfl
@[simp] theorem enterResult_att (r : Result) (s : State) : (enterResult r s).att = s.att := rfl
@[simp] theorem enterResult_res (r : Result) (s : State) : (enterResult r s).res = r := rfl
@[simp] theorem enterResult_viol (r : Result) (s : State) : (enterResult r s).viol = s.viol := rfl
@[simp] theorem enterResult_maxAttempts (r : Result) (s : State) : (enterResult r s).maxAttempts = s.maxAttempts := rfl
@[simp] theorem enterResult_stream (r : Result) (s : State) : (enterResult r s).stream = s.stream := rfl
@[simp] theorem enterResult_held (r : Result) (s : State) : (enterResult r s).held = s.held := rfl

@[simp] theorem startAccumulation_crc (s : State) : (startAccumulation s).crc = s.crc := rfl
@[simp] theorem startAccumulation_st (s : State) : (startAccumulation s).st = .accum := rfl
@[simp] theorem startAccumulation_n (s : State) : (startAccumulation s).n = 0 := rfl
@[simp] theorem startAccumulation_buf (s : State) : (startAccumulation s).buf = [] := rfl
@[simp] theorem startAccumulation_att (s : State) : (startAccumulation s).att = 0 := rfl
@[simp] theorem startAccumulation_res (s : State) : (startAccumulation s).res = .none := rfl
@[simp] theorem startAccumulation_viol (s : State) : (startAccumulation s).viol = s.viol := rfl
@[simp] theorem startAccumulation_maxAttempts (s : State) : (startAccumulation s).maxAttempts = s.maxAttempts := rfl
@[simp] theorem startAccumulation_stream (s : State) : (startAccumulation s).stream = s.stream := rfl
@[simp] theorem startAccumulation_held (s : State) : (startAccumulation s).held = s.held := rfl

@[simp] theorem recordViolation_crc (found : Bool) (s : State) : (recordViolation found s).crc = s.crc := rfl
@[simp] theorem recordViolation_st (found : Bool) (s : State) : (recordViolation found s).st = s.st := rfl
@[simp] theorem recordViolation_n (found : Bool) (s : State) : (recordViolation found s).n = s.n := rfl
@[simp] theorem recordViolation_buf (found : Bool) (s : State) : (recordViolation found s).buf = s.buf := rfl
@[simp] theorem recordViolation_att (found : Bool) (s : State) : (recordViolation found s).att = s.att := rfl
@[simp] theorem recordViolation_res (found : Bool) (s : State) : (recordViolation found s).res = s.res := rfl
@[simp] theorem recordViolation_viol (found : Bool) (s : State) : (recordViolation found s).viol = (s.viol || found) := rfl
@[simp] theorem recordViolation_maxAttempts (found : Bool) (s : State) : (recordViolation found s).maxAttempts = s.maxAttempts := rfl
@[simp] theorem recordViolation_stream (found : Bool) (s : State) : (recordViolation found s).stream = s.stream := rfl
@[simp] theorem recordViolation_held (found : Bool) (s : State) : (recordViolation found s).held = s.held := rfl

@[simp] theorem storeByte_crc (b : Byte) (s : State) : (storeByte b s).crc = s.crc := rfl
@[simp] theorem storeByte_st (b : Byte) (s : State) : (storeByte b s).st = s.st := rfl
@[simp] theorem storeByte_n (b : Byte) (s : State) : (storeByte b s).n = s.n + 1 := rfl
@[simp] theorem storeByte_buf (b : Byte) (s : State) : (storeByte b s).buf = memWrite s.buf s.n.toNat b := rfl
@[simp] theorem storeByte_att (b : Byte) (s : State) : (storeByte b s).att = s.att := rfl
@[simp] theorem storeByte_res (b : Byte) (s : State) : (storeByte b s).res = s.res := rfl
@[simp] theorem storeByte_viol (b : Byte) (s : State) : (storeByte b s).viol = s.viol := rfl
@[simp] theorem storeByte_maxAttempts (b : Byte) (s : State) : (storeByte b s).maxAttempts = s.maxAttempts := rfl
@[simp] theorem storeByte_stream (b : Byte) (s : State) : (storeByte b s).stream = s.stream := rfl
@[simp] theorem storeByte_held (b : Byte) (s : State) : (storeByte b s).held = s.held := rfl

@[simp] theorem countAttempt_crc (s : State) : (countAttempt s).crc = s.crc := rfl
@[simp] theorem countAttempt_st (s : State) : (countAttempt s).st = s.st := rfl
@[simp] theorem countAttempt_n (s : State) : (countAttempt s).n = s.n := rfl
@[simp] theorem countAttempt_buf (s : State) : (countAttempt s).buf = s.buf := rfl
@[simp] theorem countAttempt_att (s : State) : (countAttempt s).att = s.att + 1 := rfl
@[simp] theorem countAttempt_res (s : State) : (countAttempt s).res = s.res := rfl
@[simp] theorem countAttempt_viol (s : State) : (countAttempt s).viol = s.viol := rfl
@[simp] theorem countAttempt_maxAttempts (s : State) : (countAttempt s).maxAttempts = s.maxAttempts := rfl
@[simp] theorem countAttempt_stream (s : State) : (countAttempt s).stream = s.stream := rfl
@[simp] theorem countAttempt_held (s : State) : (countAttempt s).held = s.held := rfl

@[simp] theorem setHeld_crc (bytes : List Byte) (s : State) : (setHeld bytes s).crc = s.crc := rfl
@[simp] theorem setHeld_st (bytes : List Byte) (s : State) : (setHeld bytes s).st = s.st := rfl
@[simp] theorem setHeld_n (bytes : List Byte) (s : State) : (setHeld bytes s).n = s.n := rfl
@[simp] theorem setHeld_buf (bytes : List Byte) (s : State) : (setHeld bytes s).buf = s.buf := rfl
@[simp] theorem setHeld_att (bytes : List Byte) (s : State) : (setHeld bytes s).att = s.att := rfl
@[simp] theorem setHeld_res (bytes : List Byte) (s : State) : (setHeld bytes s).res = s.res := rfl
@[simp] theorem setHeld_viol (bytes : List Byte) (s : State) : (setHeld bytes s).viol = s.viol := rfl
@[simp] theorem setHeld_maxAttempts (bytes : List Byte) (s : State) : (setHeld bytes s).maxAttempts = s.maxAttempts := rfl
@[simp] theorem setHeld_stream (bytes : List Byte) (s : State) : (setHeld bytes s).stream = s.stream := rfl
@[simp] theorem setHeld_held (bytes : List Byte) (s : State) : (setHeld bytes s).held = bytes := rfl

@[simp] theorem setStream_crc (xs : List Input) (s : State) : (setStream xs s).crc = s.crc := rfl
@[simp] theorem setStream_st (xs : List Input) (s : State) : (setStream xs s).st = s.st := rfl
@[simp] theorem setStream_n (xs : List Input) (s : State) : (setStream xs s).n = s.n := rfl
@[simp] theorem setStream_buf (xs : List Input) (s : State) : (setStream xs s).buf = s.buf := rfl
@[simp] theorem setStream_att (xs : List Input) (s : State) : (setStream xs s).att = s.att := rfl
@[simp] theorem setStream_res (xs : List Input) (s : State) : (setStream xs s).res = s.res := rfl
@[simp] theorem setStream_viol (xs : List Input) (s : State) : (setStream xs s).viol = s.viol := rfl
@[simp] theorem setStream_maxAttempts (xs : List Input) (s : State) : (setStream xs s).maxAttempts = s.maxAttempts := rfl
@[simp] theorem setStream_stream (xs : List Input) (s : State) : (setStream xs s).stream = xs := rfl
@[simp] theorem setStream_held (xs : List Input) (s : State) : (setStream xs s).held = s.held := rfl

@[simp] theorem resetBlock_crc (s : State) : (resetBlock s).crc = config.crcInit := rfl
@[simp] theorem resetBlock_st (s : State) : (resetBlock s).st = .idle := rfl
@[simp] theorem resetBlock_n (s : State) : (resetBlock s).n = 0 := rfl
@[simp] theorem resetBlock_buf (s : State) : (resetBlock s).buf = [] := rfl
@[simp] theorem resetBlock_att (s : State) : (resetBlock s).att = 0 := rfl
@[simp] theorem resetBlock_res (s : State) : (resetBlock s).res = .none := rfl
@[simp] theorem resetBlock_viol (s : State) : (resetBlock s).viol = false := rfl
@[simp] theorem resetBlock_maxAttempts (s : State) : (resetBlock s).maxAttempts = s.maxAttempts := rfl
@[simp] theorem resetBlock_stream (s : State) : (resetBlock s).stream = s.stream := rfl
@[simp] theorem resetBlock_held (s : State) : (resetBlock s).held = s.held := rfl

@[simp] theorem reset_crc : State.reset.crc = 0x0000#16 := rfl
@[simp] theorem reset_st : State.reset.st = .idle := rfl
@[simp] theorem reset_n : State.reset.n = 0 := rfl
@[simp] theorem reset_buf : State.reset.buf = [] := rfl
@[simp] theorem reset_att : State.reset.att = 0 := rfl
@[simp] theorem reset_res : State.reset.res = .none := rfl
@[simp] theorem reset_viol : State.reset.viol = false := rfl
@[simp] theorem reset_maxAttempts : State.reset.maxAttempts = Config.maxAttempts := rfl
@[simp] theorem reset_stream : State.reset.stream = [] := rfl
@[simp] theorem reset_held : State.reset.held = [] := rfl

end Sys2Proof.Machine
end

