-- ==== Sys2Proof/Laws/Memory.lean ====
section
/-! SUPPORT. The laws of the buffer: a read after a write, and the canonical form every memory operation keeps. -/

set_option Elab.async false

namespace Sys2Proof.Machine

@[simp] theorem cellAt_nil (i : Nat) : cellAt [] i = none := rfl

theorem cellAt_memWrite_same (m : Memory) (i : Nat) (v : Byte) : cellAt (memWrite m i v) i = some v := by
  induction m with
  | nil => simp [memWrite, cellAt]
  | cons c m ih =>
    obtain ⟨j, w⟩ := c
    simp only [memWrite]
    split
    · simp [cellAt]
    · split
      · simp [cellAt]
      · next h => simpa [cellAt, Ne.symm h] using ih

theorem cellAt_memWrite_other (m : Memory) (i k : Nat) (v : Byte) (h : k ≠ i) :
    cellAt (memWrite m i v) k = cellAt m k := by
  induction m with
  | nil => simp [memWrite, cellAt, Ne.symm h]
  | cons c m ih =>
    obtain ⟨j, w⟩ := c
    simp only [memWrite]
    split
    · simp [cellAt, Ne.symm h]
    · split
      · next _ h2 => subst h2; simp [cellAt, Ne.symm h]
      · simp [cellAt, ih]

/-- What a write leaves in every cell. -/
theorem cellAt_memWrite (m : Memory) (i k : Nat) (v : Byte) :
    cellAt (memWrite m i v) k = if k = i then some v else cellAt m k := by
  split
  · next h => rw [h, cellAt_memWrite_same]
  · next h => exact cellAt_memWrite_other m i k v h

/-- The keys of a written buffer: the one written and those there before. -/
theorem mem_keys_memWrite (m : Memory) (i : Nat) (v : Byte) (c : Host.Cell) (h : c ∈ memWrite m i v) :
    c = (i, v) ∨ c ∈ m := by
  induction m with
  | nil => simpa [memWrite] using h
  | cons d m ih =>
    obtain ⟨j, w⟩ := d
    simp only [memWrite] at h
    split at h
    · simpa using h
    · split at h
      · simp only [List.mem_cons] at h ⊢; tauto
      · simp only [List.mem_cons] at h ⊢
        rcases h with h | h
        · exact .inr (.inl h)
        · rcases ih h with h | h
          · exact .inl h
          · exact .inr (.inr h)

theorem wf_nil : Memory.wf [] := ⟨List.Pairwise.nil, by simp⟩

theorem wf_tail (c : Host.Cell) (m : Memory) (h : Memory.wf (c :: m)) : Memory.wf m :=
  ⟨(List.pairwise_cons.1 h.1).2, fun d hd => h.2 d (List.mem_cons_of_mem _ hd)⟩

/-- A write to one of the 255 cells keeps the canonical form. -/
theorem memWrite_wf (m : Memory) (i : Nat) (v : Byte) (hi : i < 255) (h : Memory.wf m) :
    Memory.wf (memWrite m i v) := by
  induction m with
  | nil => exact ⟨by simp [memWrite], by simp [memWrite, hi]⟩
  | cons d m ih =>
    obtain ⟨j, w⟩ := d
    have hrest := wf_tail _ _ h
    have hj : j < 255 := h.2 (j, w) (by simp)
    have hlt : ∀ c ∈ m, j < c.1 := by
      intro c hc
      exact (List.pairwise_cons.1 h.1).1 c.1 (List.mem_map_of_mem hc)
    simp only [memWrite]
    split
    · next hij =>
      refine ⟨?_, ?_⟩
      · rw [List.map_cons, List.pairwise_cons]
        refine ⟨?_, h.1⟩
        intro a ha
        rw [List.map_cons, List.mem_cons] at ha
        rcases ha with ha | ha
        · subst ha; exact hij
        · obtain ⟨c, hc, rfl⟩ := List.mem_map.1 ha
          exact lt_trans hij (hlt c hc)
      · intro c hc
        rcases List.mem_cons.1 hc with hc | hc
        · subst hc; exact hi
        · exact h.2 c hc
    · split
      · next hij =>
        subst hij
        refine ⟨h.1, ?_⟩
        intro c hc
        rcases List.mem_cons.1 hc with hc | hc
        · subst hc; exact hi
        · exact hrest.2 c hc
      · next h1 h2 =>
        have ih' := ih hrest
        refine ⟨?_, ?_⟩
        · rw [List.map_cons, List.pairwise_cons]
          refine ⟨?_, ih'.1⟩
          intro a ha
          obtain ⟨c, hc, rfl⟩ := List.mem_map.1 ha
          rcases mem_keys_memWrite m i v c hc with hc | hc
          · subst hc; show j < i; omega
          · exact hlt c hc
        · intro c hc
          rcases List.mem_cons.1 hc with hc | hc
          · subst hc; exact hj
          · exact ih'.2 c hc

/-- A buffer in canonical form has no cell from index 255 on. -/
theorem cellAt_outside (m : Memory) (i : Nat) (h : Memory.wf m) (hi : 255 ≤ i) : cellAt m i = none := by
  induction m with
  | nil => rfl
  | cons d m ih =>
    obtain ⟨j, w⟩ := d
    have hj : j < 255 := h.2 (j, w) (by simp)
    simp only [cellAt]
    rw [if_neg (by omega)]
    exact ih (wf_tail _ _ h)

/-- All a read can answer. -/
theorem memRead_cases (m : Memory) (i : Nat) :
    (∃ v, i < 255 ∧ cellAt m i = some v ∧ memRead m i = .ok v) ∨
      ((255 ≤ i ∨ cellAt m i = none) ∧ memRead m i = .error (.unwrittenRead i)) := by
  unfold memRead
  by_cases hi : i < config.maxFrame
  · rw [if_pos hi]
    cases hc : cellAt m i with
    | none => exact .inr ⟨.inr rfl, rfl⟩
    | some v => exact .inl ⟨v, by simpa using hi, rfl, rfl⟩
  · rw [if_neg hi]
    exact .inr ⟨.inl (by simpa using hi), rfl⟩

theorem memRead_of_cell (m : Memory) (i : Nat) (v : Byte) (hi : i < 255) (hc : cellAt m i = some v) :
    memRead m i = .ok v := by
  simp [memRead, hi, hc]

/-- A read depends on its own cell alone. -/
theorem memRead_congr (m m' : Memory) (i : Nat) (h : cellAt m i = cellAt m' i) : memRead m i = memRead m' i := by
  unfold memRead
  rw [h]

/-- A read after a write to the same cell gives the byte written; one elsewhere gives what it gave before. -/
theorem memRead_memWrite (m : Memory) (i k : Nat) (v : Byte) (hi : i < 255) :
    memRead (memWrite m i v) k = if k = i then .ok v else memRead m k := by
  split
  · next h => subst h; exact memRead_of_cell _ _ _ hi (cellAt_memWrite_same m k v)
  · next h => exact memRead_congr _ _ _ (cellAt_memWrite_other m i k v h)

/-- A range read answers exactly the bytes of its cells. -/
theorem memReadFrom_ok (m : Memory) (i : Nat) (bs : List Byte) (hi : i + bs.length ≤ 255)
    (h : ∀ k (hk : k < bs.length), cellAt m (i + k) = some bs[k]) : memReadFrom m i bs.length = .ok bs := by
  induction bs generalizing i with
  | nil => rfl
  | cons b bs ih =>
    simp only [List.length_cons] at hi
    have h0 : cellAt m i = some b := h 0 (by simp)
    have hrest := ih (i + 1) (by omega) (fun k hk => by
      have hk' : cellAt m (i + (k + 1)) = some bs[k] := h (k + 1) (by simpa using hk)
      rwa [show i + 1 + k = i + (k + 1) by omega])
    simp [memReadFrom, memRead_of_cell m i b (by omega) h0, hrest]

end Sys2Proof.Machine
end

