-- ==== Sys2Proof/Laws/Crc.lean ====
section
/-! SUPPORT. Small lemmas of the checksum function. -/

set_option Elab.async false

namespace Sys2Proof

@[simp] theorem crcFrom_nil (c : U16) : crcFrom c [] = c := rfl

@[simp] theorem crcFrom_cons (c : U16) (b : Byte) (bs : List Byte) :
    crcFrom c (b :: bs) = crcFrom (crcUpdate c b) bs := rfl

/-- The accumulator after two sequences is the second's from where the first ended. -/
theorem crcFrom_append (c : U16) (xs ys : List Byte) : crcFrom c (xs ++ ys) = crcFrom (crcFrom c xs) ys := by
  induction xs generalizing c with
  | nil => rfl
  | cons x xs ih => exact ih _

theorem crc16_eq (bytes : List Byte) : crc16 bytes = crcFrom 0x0000#16 bytes := rfl

@[simp] theorem crcShift_zero (c : U16) : crcShift 0 c = c := rfl

@[simp] theorem crcShift_succ (k : Nat) (c : U16) : crcShift (k + 1) c = crcShift k (crcShift1 c) := rfl

end Sys2Proof
end

