-- ==== Sys2Proof/Laws/Validator.lean ====
section
/-! SUPPORT. The predicates of the reassembler and the validator as plain propositions. -/

set_option Elab.async false

namespace Sys2Proof.Machine

/-- The completion predicate (R120) as a proposition. -/
theorem complete_iff (n : Nat) (len : Byte) : complete n len = true ↔ 6 ≤ n ∧ (len = 0x00#8 ∨ len.toNat = n) := by
  unfold complete
  rw [Bool.and_eq_true, decide_eq_true_iff, Bool.or_eq_true, beq_iff_eq, beq_iff_eq]
  exact Iff.rfl

/-- The completion predicate on a buffer, as a proposition. -/
theorem bufferComplete_iff (buffer : List Byte) :
    bufferComplete buffer = true ↔
      6 ≤ buffer.length ∧ ∃ len, buffer[2]? = some len ∧ (len = 0x00#8 ∨ len.toNat = buffer.length) := by
  unfold bufferComplete
  split
  · next len h => simp only [complete_iff, h, Option.some.injEq, exists_eq_left']
  · next h => simp [h]

/-- The open case, as a proposition. -/
theorem oversizeZeroLength_iff (buffer : List Byte) :
    oversizeZeroLength buffer = true ↔ buffer[2]? = some 0x00#8 ∧ 6 < buffer.length := by
  unfold oversizeZeroLength
  rw [Bool.and_eq_true, beq_iff_eq, decide_eq_true_iff]
  exact Iff.rfl

/-- Outside the open case the loop's outcome is that of validation. -/
theorem loopOutcome_of_not_oversize (buffer : List Byte) (h : buffer[2]? ≠ some 0x00#8 ∨ buffer.length ≤ 6) :
    loopOutcome buffer = validate buffer := by
  have hb : oversizeZeroLength buffer = false :=
    Bool.eq_false_iff.2 fun ho => by
      obtain ⟨h0, h6⟩ := (oversizeZeroLength_iff buffer).1 ho
      rcases h with h | h
      · exact h h0
      · omega
  simp [loopOutcome, hb]

/-- A buffer that completes at its last byte and not before is never the open case (R127). -/
theorem loopOutcome_of_first_complete (buffer : List Byte) (b : Byte) (hb : bufferComplete buffer = false) :
    loopOutcome (buffer ++ [b]) = validate (buffer ++ [b]) := by
  apply loopOutcome_of_not_oversize
  by_contra hc
  obtain ⟨h0, h6⟩ := not_or.1 hc
  have h6' : 6 ≤ buffer.length := by simp at h6; omega
  have h2 : buffer[2]? = some 0x00#8 := by
    rw [List.getElem?_append_left (by omega)] at h0
    exact not_not.1 h0
  have : bufferComplete buffer = true := (bufferComplete_iff buffer).2 ⟨h6', _, h2, .inl rfl⟩
  rw [hb] at this
  cases this

/-- The right length byte of a frame, as a proposition. -/
theorem lengthByteOk_iff (len : Byte) (n : Nat) :
    lengthByteOk len n = true ↔ (len = 0x00#8 ∧ n = 6) ∨ len.toNat = n := by
  unfold lengthByteOk
  rw [Bool.or_eq_true, Bool.and_eq_true, beq_iff_eq, beq_iff_eq, beq_iff_eq]
  exact Iff.rfl

/-- The header check (R161), as a proposition. -/
theorem headerOk_iff (raw : List Byte) :
    headerOk raw = true ↔ raw[0]? = some 0x02#8 ∧ raw[1]? = some 0x03#8 := by
  unfold headerOk
  rw [Bool.and_eq_true, beq_iff_eq, beq_iff_eq]
  exact Iff.rfl

/-- The frame without its checksum. -/
theorem stripped_append (body : List Byte) (lo hi : Byte) : stripped (body ++ [lo, hi]) = body := by
  simp [stripped]

/-- The checksum a frame carries (R162). -/
theorem receivedChecksum_append (body : List Byte) (lo hi : Byte) :
    receivedChecksum (body ++ [lo, hi]) = some (lePair lo hi) := by
  simp [receivedChecksum]

/-- The checksum check (R162) of a body with two bytes behind it. -/
theorem checksumOk_append (body : List Byte) (lo hi : Byte) :
    checksumOk (body ++ [lo, hi]) = true ↔ lePair lo hi = crc16 body := by
  simp [checksumOk, receivedChecksum_append, computedChecksum, stripped_append]

/-- Everything validation can answer: one of the six results of R34 (f). -/
theorem validate_cases (raw : List Byte) :
    (validate raw = .framing ∧ headerOk raw = false) ∨
      (validate raw = .checksum ∧ headerOk raw = true ∧ checksumOk raw = false) ∨
      (validate raw = classify raw ∧ headerOk raw = true ∧ checksumOk raw = true) := by
  unfold validate
  cases headerOk raw <;> cases checksumOk raw <;> simp

/-- Classification never gives an error of the two checks, nor an outcome of the operations. -/
theorem classify_cases (raw : List Byte) :
    classify raw = .ack ∨ classify raw = .nack ∨ classify raw = .illegal ∨ classify raw = .data := by
  unfold classify
  repeat' split
  all_goals simp

/-- The value of a little-endian pair (20_memory.md R54). -/
theorem lePair_toNat (lo hi : Byte) : (lePair lo hi).toNat = lo.toNat + 256 * hi.toNat := by
  have hlo := lo.isLt
  have hhi := hi.isLt
  unfold lePair zext16
  rw [BitVec.toNat_or, BitVec.toNat_shiftLeft, BitVec.toNat_setWidth, BitVec.toNat_setWidth,
    Nat.mod_eq_of_lt (by omega : lo.toNat < 2 ^ 16), Nat.mod_eq_of_lt (by omega : hi.toNat < 2 ^ 16),
    Nat.shiftLeft_eq, Nat.mod_eq_of_lt (by omega : hi.toNat * 2 ^ 8 < 2 ^ 16), Nat.or_comm,
    Nat.mul_comm, ← Nat.two_pow_add_eq_or_of_lt (by omega : lo.toNat < 2 ^ 8)]
  omega

end Sys2Proof.Machine
end

