-- ==== Sys2Proof/Laws/Cells.lean ====
section
/-! SUPPORT. The buffer that holds given bytes from index 0 on: its cells, its form, and the invariant of a block that
holds them. -/

set_option Elab.async false

namespace Sys2Proof.Machine

/-- The cells of bytes laid out from an index on. -/
theorem cellAt_zip (i k : Nat) (bytes : List Byte) :
    cellAt ((List.range' i bytes.length).zip bytes) k = if k < i then none else bytes[k - i]? := by
  induction bytes generalizing i with
  | nil => simp
  | cons b bs ih =>
    rw [List.length_cons, List.range'_succ, List.zip_cons_cons, cellAt, ih]
    by_cases hk : i = k
    · subst hk; simp
    · rw [if_neg hk]
      by_cases hlt : k < i
      · rw [if_pos (by omega), if_pos hlt]
      · rw [if_neg (by omega), if_neg hlt, show k - i = (k - (i + 1)) + 1 by omega, List.getElem?_cons_succ]

@[simp] theorem cellAt_cellsOf (bytes : List Byte) (k : Nat) : cellAt (cellsOf bytes) k = bytes[k]? := by
  unfold cellsOf
  rw [List.range_eq_range', cellAt_zip]
  simp

theorem cellsOf_wf (bytes : List Byte) (h : bytes.length ≤ 255) : Memory.wf (cellsOf bytes) := by
  unfold cellsOf
  constructor
  · rw [List.map_fst_zip (by simp)]
    exact List.pairwise_lt_range
  · intro c hc
    have hm := (List.of_mem_zip (a := c.1) (b := c.2) hc).1
    rw [List.mem_range] at hm
    omega

/-- The cells with a value are those below the count. -/
theorem cellsOf_filled (bytes : List Byte) (n : Byte) (h : n.toNat = bytes.length) (i : Nat) :
    (cellAt (cellsOf bytes) i).isSome = true ↔ i < n.toNat := by
  rw [cellAt_cellsOf, h]
  simp

/-- A block that accumulates and holds bytes that do not complete meets the invariant. -/
theorem accumulating_inv (s : State) (bytes : List Byte) (hst : s.st = .accum) (hbuf : s.buf = cellsOf bytes)
    (hn : s.n.toNat = bytes.length) (hc : bufferComplete bytes = false) (hres : s.res = .none)
    (hatt : s.att < s.maxAttempts) : s.Inv where
  canonical := by rw [hbuf]; exact cellsOf_wf _ (by have := s.n.isLt; omega)
  filled := by rw [hbuf]; exact cellsOf_filled _ _ hn
  idleClear := by simp [hst]
  accumOpen := fun _ => ⟨hres, hatt⟩
  accumIncomplete := by
    intro _ len hl
    rw [hbuf, cellAt_cellsOf] at hl
    rw [hn]
    simpa [bufferComplete, hl] using hc
  doneResult := by simp [hst]
  validated := by simp [hres, Result.byValidation]
  attemptsBounded := by omega
  attemptsExhausted := by omega
  parameterLegal := by omega

/-- A block in DONE after a complete frame meets the invariant. -/
theorem delivered_inv (s : State) (bytes : List Byte) (hst : s.st = .done) (hbuf : s.buf = cellsOf bytes)
    (hn : s.n.toNat = bytes.length) (hc : bufferComplete bytes = true) (hres : s.res = validate bytes)
    (hatt : s.att < s.maxAttempts) : s.Inv where
  canonical := by rw [hbuf]; exact cellsOf_wf _ (by have := s.n.isLt; omega)
  filled := by rw [hbuf]; exact cellsOf_filled _ _ hn
  idleClear := by simp [hst]
  accumOpen := by simp [hst]
  accumIncomplete := by simp [hst]
  doneResult := by
    intro _
    rw [hres]
    rcases validate_cases bytes with h | h | h
    · simp [h.1]
    · simp [h.1]
    · rw [h.1]; rcases classify_cases bytes with h' | h' | h' | h' <;> simp [h']
  validated := by
    intro _
    obtain ⟨h6, len, hl, hk⟩ := (bufferComplete_iff bytes).1 hc
    refine ⟨by rw [hn]; exact h6, len, by rw [hbuf, cellAt_cellsOf]; exact hl, ?_⟩
    rw [hn]
    exact (complete_iff _ _).2 ⟨h6, hk⟩
  attemptsBounded := by omega
  attemptsExhausted := by omega
  parameterLegal := by omega

end Sys2Proof.Machine
end

