-- ==== Sys2Proof/Laws/Synchronizer.lean ====
section
/-! SUPPORT. Everything each shared operation of the synchronizer can do, said once. -/

set_option Elab.async false

namespace Sys2Proof.Machine

/-- All the completion test can answer. -/
theorem frameComplete_cases (s : State) :
    (s.n.toNat < 6 ∧ frameComplete s = .ok false) ∨
      (∃ len, 6 ≤ s.n.toNat ∧ memRead s.buf 2 = .ok len ∧ frameComplete s = .ok (complete s.n.toNat len)) ∨
      (6 ≤ s.n.toNat ∧ cellAt s.buf 2 = none ∧ frameComplete s = .error (.unwrittenRead 2)) := by
  unfold frameComplete
  by_cases hn : config.minFrame ≤ s.n.toNat
  · rw [if_pos hn]
    have hn' : 6 ≤ s.n.toNat := by simpa using hn
    rcases memRead_cases s.buf 2 with ⟨v, _, _, h⟩ | ⟨hc, h⟩
    · exact .inr (.inl ⟨v, hn', h, by rw [h]⟩)
    · exact .inr (.inr ⟨hn', hc.resolve_left (by decide), by rw [h]⟩)
  · rw [if_neg hn]
    exact .inl ⟨by simpa using hn, rfl⟩

/-- A byte consumed in ACCUM that leads to a next state: discarded by a full buffer, stored in an incomplete frame, or
stored as the completing byte of a frame that validation then decides. -/
theorem consumeByte_next (b : Byte) (s t : State) (h : consumeByte b s = .next t) :
    (s.n.toNat = 255 ∧ t = s) ∨
      (s.n.toNat < 255 ∧ frameComplete (storeByte b s) = .ok false ∧ t = storeByte b s) ∨
      (∃ raw, s.n.toNat < 255 ∧ frameComplete (storeByte b s) = .ok true ∧ rawFrame (storeByte b s) = .ok raw ∧
        t = enterResult (validate raw) (storeByte b s)) := by
  unfold consumeByte at h
  by_cases hn : s.n.toNat < config.maxFrame
  · rw [if_pos hn] at h
    have hn' : s.n.toNat < 255 := by simpa using hn
    unfold finishByte at h
    split at h
    · cases h
    · next hc => cases h; exact .inr (.inl ⟨hn', hc, rfl⟩)
    · next hc =>
      split at h
      · cases h
      · next raw hr => cases h; exact .inr (.inr ⟨raw, hn', hc, hr, rfl⟩)
  · rw [if_neg hn] at h
    cases h
    have := s.n.isLt
    have hn' : 255 ≤ s.n.toNat := by simpa using hn
    exact .inl ⟨by omega, rfl⟩

/-- No byte is refused. -/
theorem consumeByte_not_refused (b : Byte) (s : State) (r : Refusal) : consumeByte b s ≠ .refused r := by
  intro h
  unfold consumeByte finishByte at h
  split at h
  · split at h
    · cases h
    · cases h
    · split at h <;> cases h
  · cases h

/-- What RX_BYTE does when it takes a step: only in ACCUM, and then as `consumeByte_next` says. -/
theorem execRxByte_next (b : Byte) (s t : State) (h : execRxByte b s = .next t) :
    s.st = .accum ∧ consumeByte b s = .next t := by
  unfold execRxByte at h
  split at h
  · next hs => exact ⟨hs, h⟩
  · cases h

/-- All ATTEMPT_END can do: ignored, counted, or counted as the last one allowed. -/
theorem execAttemptEnd_cases (s : State) :
    (s.st ≠ .accum ∧ execAttemptEnd s = .next s) ∨
      (s.st = .accum ∧ s.att + 1 ≠ s.maxAttempts ∧ execAttemptEnd s = .next (countAttempt s)) ∨
      (s.st = .accum ∧ s.att + 1 = s.maxAttempts ∧
        execAttemptEnd s = .next (enterResult .timeout (countAttempt s))) := by
  unfold execAttemptEnd finishAttempt
  by_cases hs : s.st = .accum
  · rw [if_pos hs]
    by_cases hm : s.att + 1 = s.maxAttempts
    · exact .inr (.inr ⟨hs, hm, by simp [hm]⟩)
    · exact .inr (.inl ⟨hs, hm, by simp [hm]⟩)
  · rw [if_neg hs]
    exact .inl ⟨hs, rfl⟩

/-- All RX_ERROR can do: ignored, or the result IO. -/
theorem execRxError_cases (s : State) :
    (s.st ≠ .accum ∧ execRxError s = .next s) ∨ (s.st = .accum ∧ execRxError s = .next (enterResult .io s)) := by
  unfold execRxError
  by_cases hs : s.st = .accum
  · exact .inr ⟨hs, by rw [if_pos hs]⟩
  · exact .inl ⟨hs, by rw [if_neg hs]⟩

/-- All the environment's turn can do: nothing held, the block not ready, or RX_BYTE of the first held byte. -/
theorem presentHeld_cases (s : State) :
    (s.held = [] ∧ presentHeld s = .next s) ∨
      (s.st ≠ .accum ∧ presentHeld s = .next s) ∨
      (∃ b bs, s.st = .accum ∧ s.held = b :: bs ∧ presentHeld s = consumeByte b (setHeld bs s)) := by
  unfold presentHeld
  split
  · next h => exact .inl ⟨h, rfl⟩
  · next b bs h =>
    by_cases hs : s.st = .accum
    · exact .inr (.inr ⟨b, bs, hs, h, by rw [if_pos hs, execRxByte]; exact if_pos hs⟩)
    · exact .inr (.inl ⟨hs, by rw [if_neg hs]⟩)

/-- Bytes that arrive while the block is not ready are all held, in order (R36). -/
theorem receive_not_ready (bytes : List Byte) (s : State) (h : s.st ≠ .accum) :
    receive bytes s = .next (setHeld (s.held ++ bytes) s) := by
  unfold receive
  rcases presentHeld_cases (setHeld (s.held ++ bytes) s) with ⟨_, hp⟩ | ⟨_, hp⟩ | ⟨_, _, hs, _⟩
  · exact hp
  · exact hp
  · exact absurd hs h

/-- While the block is ready the first of the held and the arriving bytes is consumed, and the others are held. -/
theorem receive_ready (bytes : List Byte) (s : State) (b : Byte) (bs : List Byte) (hs : s.st = .accum)
    (h : s.held ++ bytes = b :: bs) : receive bytes s = consumeByte b (setHeld bs s) := by
  unfold receive
  rcases presentHeld_cases (setHeld (s.held ++ bytes) s) with ⟨hn, _⟩ | ⟨hn, _⟩ | ⟨c, cs, _, hc, hp⟩
  · rw [setHeld_held, h] at hn; cases hn
  · exact absurd hs hn
  · rw [setHeld_held, h, List.cons.injEq] at hc
    rw [hp, ← hc.1, ← hc.2]
    rfl

/-- A property that each consumed byte and each change of the held bytes keeps is kept by the environment's turn. -/
theorem presentHeld_keeps (P : State → Prop) (hheld : ∀ s bs, P s → P (setHeld bs s))
    (hbyte : ∀ s t b, s.st = .accum → P s → consumeByte b s = .next t → P t) (s t : State)
    (hs : P s) (h : presentHeld s = .next t) : P t := by
  rcases presentHeld_cases s with ⟨_, hp⟩ | ⟨_, hp⟩ | ⟨b, bs, hst, _, hp⟩
  · rw [hp] at h; cases h; exact hs
  · rw [hp] at h; cases h; exact hs
  · rw [hp] at h; exact hbyte (setHeld bs s) t b hst (hheld s bs hs) h

/-- The same of bytes that arrive from the line. -/
theorem receive_keeps (P : State → Prop) (hheld : ∀ s bs, P s → P (setHeld bs s))
    (hbyte : ∀ s t b, s.st = .accum → P s → consumeByte b s = .next t → P t) (bytes : List Byte) (s t : State)
    (hs : P s) (h : receive bytes s = .next t) : P t :=
  presentHeld_keeps P hheld hbyte _ t (hheld s _ hs) h

/-- No held byte is refused. -/
theorem presentHeld_not_refused (s : State) (r : Refusal) : presentHeld s ≠ .refused r := by
  rcases presentHeld_cases s with ⟨_, hp⟩ | ⟨_, hp⟩ | ⟨b, bs, _, _, hp⟩ <;> rw [hp]
  · exact fun h => nomatch h
  · exact fun h => nomatch h
  · exact consumeByte_not_refused b _ r

end Sys2Proof.Machine
end

