-- ==== Sys2Proof/Laws/Consume.lean ====
section
/-! SUPPORT. Consuming bytes in a block whose cells below `n` hold values (10_state.md R34 (b)): the exact next state of
one byte, and that none faults. -/

set_option Elab.async false

namespace Sys2Proof.Machine

/-- A range of cells that hold values reads as their bytes. -/
theorem memReadFrom_filled (m : Memory) (i k : Nat) (h : i + k ≤ 255)
    (hc : ∀ j, j < k → (cellAt m (i + j)).isSome = true) :
    ∃ raw, memReadFrom m i k = .ok raw ∧ raw.length = k ∧ ∀ j, j < k → cellAt m (i + j) = raw[j]? := by
  induction k generalizing i with
  | zero => exact ⟨[], rfl, rfl, fun j hj => absurd hj (by omega)⟩
  | succ k ih =>
    obtain ⟨v, hv⟩ := Option.isSome_iff_exists.1 (hc 0 (by omega))
    rw [Nat.add_zero] at hv
    obtain ⟨raw, hread, hlen, hcells⟩ := ih (i + 1) (by omega) fun j hj => by
      have := hc (j + 1) (by omega)
      rwa [show i + 1 + j = i + (j + 1) by omega]
    refine ⟨v :: raw, by simp [memReadFrom, memRead_of_cell m i v (by omega) hv, hread], by simp [hlen], ?_⟩
    intro j hj
    cases j with
    | zero => simpa using hv
    | succ j =>
      have := hcells j (by omega)
      rw [show i + (j + 1) = i + 1 + j by omega, List.getElem?_cons_succ]
      exact this

theorem storeByte_n_toNat (b : Byte) (s : State) (h : s.n.toNat < 255) :
    (storeByte b s).n.toNat = s.n.toNat + 1 := by
  simp
  omega

/-- Storing a byte keeps R34 (b). -/
theorem storeByte_filled (b : Byte) (s : State) (h : s.n.toNat < 255)
    (hf : ∀ i, (cellAt s.buf i).isSome = true ↔ i < s.n.toNat) (i : Nat) :
    (cellAt (storeByte b s).buf i).isSome = true ↔ i < (storeByte b s).n.toNat := by
  rw [storeByte_n_toNat b s h, storeByte_buf, cellAt_memWrite]
  split
  · simp
    omega
  · rw [hf]
    omega

/-- The exact next state of one byte consumed by a block that is not full: stored, and where the buffered bytes are then a
complete frame, validated (41_reassembler.md R123). -/
theorem consumeByte_filled (b : Byte) (s : State) (h : s.n.toNat < 255)
    (hf : ∀ i, (cellAt s.buf i).isSome = true ↔ i < s.n.toNat) :
    ∃ raw, rawFrame (storeByte b s) = .ok raw ∧ raw.length = s.n.toNat + 1 ∧
      (∀ i, cellAt (memWrite s.buf s.n.toNat b) i = raw[i]?) ∧
      consumeByte b s =
        .next (if bufferComplete raw then enterResult (validate raw) (storeByte b s) else storeByte b s) := by
  have hfilled := storeByte_filled b s h hf
  have hn := storeByte_n_toNat b s h
  obtain ⟨raw, hraw, hlen, hbelow⟩ := memReadFrom_filled (storeByte b s).buf 0 (storeByte b s).n.toNat (by omega)
    fun j hj => by rw [Nat.zero_add]; exact (hfilled j).2 hj
  have hcells : ∀ i, cellAt (memWrite s.buf s.n.toNat b) i = raw[i]? := by
    intro i
    by_cases hi : i < (storeByte b s).n.toNat
    · simpa using hbelow i hi
    · have hnone : cellAt (memWrite s.buf s.n.toNat b) i = none := by
        rw [← storeByte_buf]
        exact Option.not_isSome_iff_eq_none.1 fun hs => hi ((hfilled i).1 hs)
      rw [hnone, List.getElem?_eq_none (by omega)]
  have hcomplete : frameComplete (storeByte b s) = .ok (bufferComplete raw) := by
    rcases frameComplete_cases (storeByte b s) with ⟨hl, hk⟩ | ⟨len, _, hm, hk⟩ | ⟨_, hm, _⟩
    · have hb : bufferComplete raw = false :=
        Bool.eq_false_iff.2 fun hb => by have := ((bufferComplete_iff raw).1 hb).1; omega
      rw [hk, hb]
    · have hl2 : raw[2]? = some len := by
        rw [← hcells, ← storeByte_buf]
        rcases memRead_cases (storeByte b s).buf 2 with ⟨v, _, hv, hr⟩ | ⟨_, hr⟩
        · rw [hr] at hm; cases hm; exact hv
        · rw [hr] at hm; cases hm
      rw [hk, bufferComplete, hl2, hlen]
    · have := (hfilled 2).2 (by omega)
      rw [hm] at this
      cases this
  refine ⟨raw, hraw, by omega, hcells, ?_⟩
  unfold consumeByte finishByte
  rw [if_pos (by simpa using h), hcomplete]
  cases bufferComplete raw with
  | false => rfl
  | true => simp only [hraw, rawFrame, if_true]

/-- A full buffer discards the byte (R132). -/
theorem consumeByte_full (b : Byte) (s : State) (h : s.n.toNat = 255) : consumeByte b s = .next s := by
  unfold consumeByte
  rw [if_neg (by simp [h])]

/-- The driver's stream and the held bytes play no part in consuming a byte. -/
theorem consumeByte_environment (held : List Byte) (xs : List Input) (b : Byte) (s t : State)
    (h : consumeByte b s = .next t) :
    consumeByte b (setHeld held (setStream xs s)) = .next (setHeld held (setStream xs t)) := by
  have hc : frameComplete (storeByte b (setHeld held (setStream xs s))) = frameComplete (storeByte b s) := rfl
  have hr : rawFrame (storeByte b (setHeld held (setStream xs s))) = rawFrame (storeByte b s) := rfl
  rcases consumeByte_next b s t h with ⟨hn, rfl⟩ | ⟨hn, hk, rfl⟩ | ⟨raw, hn, hk, hraw, rfl⟩
  · exact consumeByte_full b _ hn
  · unfold consumeByte finishByte
    rw [if_pos (by simpa using hn), hc, hk]
    rfl
  · unfold consumeByte finishByte
    rw [if_pos (by simpa using hn), hc, hk]
    simp only [hr, hraw]
    rfl

/-- Consuming a byte never faults in a block whose cells below `n` hold values. -/
theorem consumeByte_total (b : Byte) (s : State) (hf : ∀ i, (cellAt s.buf i).isSome = true ↔ i < s.n.toNat) :
    ∃ t, consumeByte b s = .next t := by
  by_cases hn : s.n.toNat < 255
  · obtain ⟨raw, _, _, _, hnext⟩ := consumeByte_filled b s hn hf
    exact ⟨_, hnext⟩
  · exact ⟨s, consumeByte_full b s (by have := s.n.isLt; omega)⟩

/-- The environment's turn never faults in such a block. -/
theorem presentHeld_total (s : State) (hf : ∀ i, (cellAt s.buf i).isSome = true ↔ i < s.n.toNat) :
    ∃ t, presentHeld s = .next t := by
  rcases presentHeld_cases s with ⟨_, hp⟩ | ⟨_, hp⟩ | ⟨b, bs, _, _, hp⟩ <;> rw [hp]
  · exact ⟨s, rfl⟩
  · exact ⟨s, rfl⟩
  · exact consumeByte_total b (setHeld bs s) hf

end Sys2Proof.Machine
end

