-- ==== Sys2Proof/Laws/Decode.lean ====
section
/-! SUPPORT. Small lemmas of the decoder and the encoder. -/

set_option Elab.async false

namespace Sys2Proof

@[simp] theorem opField_mkWord (op : BitVec 3) (data : Byte) : opField (mkWord op data) = op := by
  revert op data; unfold opField mkWord; decide +kernel

@[simp] theorem dataField_mkWord (op : BitVec 3) (data : Byte) : dataField (mkWord op data) = data := by
  revert op data; unfold dataField mkWord; decide +kernel

/-- The last two bytes come off again. -/
@[simp] theorem splitChecksum_append (body : List Byte) (lo hi : Byte) :
    splitChecksum (body ++ [lo, hi]) = some (body, lo, hi) := by
  induction body with
  | nil => rfl
  | cons x xs ih =>
    cases xs with
    | nil => rfl
    | cons y ys =>
      cases ys with
      | nil => rfl
      | cons z zs => simp only [List.cons_append] at ih ⊢; simp only [splitChecksum, ih]

/-- What a split takes apart is put together again. -/
theorem append_of_splitChecksum (bytes body : List Byte) (lo hi : Byte)
    (h : splitChecksum bytes = some (body, lo, hi)) : bytes = body ++ [lo, hi] := by
  induction bytes using splitChecksum.induct generalizing body with
  | case1 => cases h
  | case2 => cases h
  | case3 a b => simp only [splitChecksum, Option.some.injEq, Prod.mk.injEq] at h; obtain ⟨rfl, rfl, rfl⟩ := h; rfl
  | case4 x y z zs hn => simp [splitChecksum, hn] at h
  | case5 x y z zs body' lo' hi' hs ih =>
    simp only [splitChecksum, hs, Option.some.injEq, Prod.mk.injEq] at h
    obtain ⟨rfl, rfl, rfl⟩ := h
    rw [List.cons_append, ← ih _ hs]

/-- The decoder on the wire bytes of a frame. -/
theorem decodeFrame_frameBytes (start addr len cmd : Byte) (p : List Byte) (lo hi : Byte) :
    decodeFrame (frameBytes start addr len cmd p lo hi) =
      if lengthByteOk len (frameLength p) then some (classifyFrame start addr len cmd p lo hi) else none := by
  simp [decodeFrame, frameBytes, frameBody]

/-- A frame with a right length byte decodes to its row. -/
theorem decode_line_of_length (start addr len cmd : Byte) (p : List Byte) (lo hi : Byte)
    (h : lengthByteOk len (frameLength p) = true) :
    decode (.line (frameBytes start addr len cmd p lo hi)) = .ok (classifyFrame start addr len cmd p lo hi) := by
  simp [decode, decodeFrame_frameBytes, h]

end Sys2Proof
end

