-- ==== Sys2Proof/Laws/PerInstr.lean ====
section
/-! SUPPORT. The per-instruction family RoundTrip: a well-formed instruction is what its encoding decodes to. -/

set_option Elab.async false

namespace Sys2Proof.Laws.RoundTrip

/-- The decoder gives back a well-formed instruction from its encoding. -/
def Statement (i : Instr) : Prop := i.wellFormed = true → decode (encode i) = .ok i

theorem nop : Statement .nop := fun _ => by decide

theorem crcInit : Statement .crcInit := fun _ => by decide

theorem crcByte (b : Byte) : Statement (.crcByte b) := fun _ => by simp [encode, decode, decodeWord]

theorem arm : Statement .arm := fun _ => by decide

theorem rxByte (b : Byte) : Statement (.rxByte b) := fun _ => by simp [encode, decode, decodeWord]

theorem attemptEnd : Statement .attemptEnd := fun _ => by decide

theorem rxError : Statement .rxError := fun _ => by decide

theorem reserved111 : Statement .reserved111 := fun _ => by decide

theorem reset : Statement .reset := fun _ => rfl

/-- The header the frame rows carry is the fixed one. -/
theorem headerMatches_config : headerMatches config.startCode config.periphAddr = true := by decide

/-- The two conditions of a control frame's row. -/
theorem controlOk_parts (len cmd lo hi : Byte) (h : controlOk len cmd lo hi = true) :
    lengthByteOk len (frameLength []) = true ∧
      checksumMatches (frameBody config.startCode config.periphAddr len cmd []) lo hi = true := by
  simpa [controlOk] using h

theorem frameAck (len crcLo crcHi : Byte) : Statement (.frameAck len crcLo crcHi) := by
  intro h
  obtain ⟨hl, hc⟩ := controlOk_parts _ _ _ _ h
  rw [encode, decode_line_of_length _ _ _ _ _ _ _ hl]
  simp [classifyFrame, headerMatches_config, hc, -config_startCode, -config_periphAddr, -config_ackSentinel]

theorem frameNack (len crcLo crcHi : Byte) : Statement (.frameNack len crcLo crcHi) := by
  intro h
  obtain ⟨hl, hc⟩ := controlOk_parts _ _ _ _ h
  rw [encode, decode_line_of_length _ _ _ _ _ _ _ hl]
  have hne : (config.nackSentinel == config.ackSentinel) = false := by decide
  simp [classifyFrame, headerMatches_config, hc, hne, -config_startCode, -config_periphAddr, -config_nackSentinel,
    -config_ackSentinel]

theorem frameIllegal (len crcLo crcHi : Byte) : Statement (.frameIllegal len crcLo crcHi) := by
  intro h
  obtain ⟨hl, hc⟩ := controlOk_parts _ _ _ _ h
  rw [encode, decode_line_of_length _ _ _ _ _ _ _ hl]
  have h1 : (config.illegalSentinel == config.ackSentinel) = false := by decide
  have h2 : (config.illegalSentinel == config.nackSentinel) = false := by decide
  simp [classifyFrame, headerMatches_config, hc, h1, h2, -config_startCode, -config_periphAddr, -config_nackSentinel,
    -config_ackSentinel, -config_illegalSentinel]

theorem frameData (len cmd : Byte) (payload : List Byte) (crcLo crcHi : Byte) :
    Statement (.frameData len cmd payload crcLo crcHi) := by
  intro h
  simp only [Instr.wellFormed, Bool.and_eq_true, Bool.not_eq_true'] at h
  obtain ⟨⟨hl, hc⟩, hk⟩ := h
  rw [encode, decode_line_of_length _ _ _ _ _ _ _ hl]
  cases payload with
  | cons x xs => simp [classifyFrame, headerMatches_config, hc, -config_startCode, -config_periphAddr]
  | nil =>
    simp only [isControl, isSentinel, List.isEmpty_nil, Bool.true_and, Bool.or_eq_false_iff] at hk
    obtain ⟨⟨ha, hn⟩, hi⟩ := hk
    simp [classifyFrame, headerMatches_config, hc, ha, hn, hi, -config_startCode, -config_periphAddr,
      -config_nackSentinel, -config_ackSentinel, -config_illegalSentinel]

theorem frameBadHeader (start addr len cmd : Byte) (payload : List Byte) (crcLo crcHi : Byte) :
    Statement (.frameBadHeader start addr len cmd payload crcLo crcHi) := by
  intro h
  simp only [Instr.wellFormed, Bool.and_eq_true, Bool.not_eq_true'] at h
  rw [encode, decode_line_of_length _ _ _ _ _ _ _ h.1]
  simp [classifyFrame, h.2]

theorem frameBadCrc (len cmd : Byte) (payload : List Byte) (crcLo crcHi : Byte) :
    Statement (.frameBadCrc len cmd payload crcLo crcHi) := by
  intro h
  simp only [Instr.wellFormed, Bool.and_eq_true, Bool.not_eq_true'] at h
  rw [encode, decode_line_of_length _ _ _ _ _ _ _ h.1]
  simp [classifyFrame, headerMatches_config, h.2, -config_startCode, -config_periphAddr]

end Sys2Proof.Laws.RoundTrip
end

