-- ==== Sys2Proof/Laws/Step.lean ====
section
/-! SUPPORT. Everything one step can do, said once, and a run as its first step and the rest. -/

set_option Elab.async false

namespace Sys2Proof.Machine

/-- A row whose encoding is line bytes has one meaning: those bytes arrive. -/
theorem exec_line (i : Instr) (bytes : List Byte) (s : State) (h : encode i = .line bytes) :
    exec i s = receive bytes s := by
  cases i <;> cases h <;> rfl

/-- When a held byte goes first, as a proposition. -/
theorem heldGoesFirst_iff (s : State) :
    heldGoesFirst s = true ↔
      s.st = .accum ∧ s.held ≠ [] ∧ ∀ x rest, s.stream = x :: rest → waitsForHeld x = true := by
  unfold heldGoesFirst rxReady
  cases s.stream <;> simp [and_assoc]

/-- What an input does when its turn has come. -/
theorem step_of_turn (s : State) (x : Input) (rest : List Input) (hs : s.stream = x :: rest)
    (hf : heldGoesFirst s = false) :
    (∀ i, decode x = .ok i → step s = exec i (setStream rest s)) ∧
      (∀ bytes, decode x = .error (.notOneFrame bytes) → step s = receive bytes (setStream rest s)) := by
  unfold step
  rw [hf, hs]
  constructor
  · intro i hi
    simp [hi]
  · intro bytes hb
    simp [hb, execRejected]

/-- With nothing presented and no held byte to go first, the block holds its state. -/
theorem step_nothing (s : State) (hs : s.stream = []) (hf : heldGoesFirst s = false) : step s = .next s := by
  unfold step
  rw [hf, hs]
  rfl

/-- A step that answers a state: the environment's held byte, nothing presented, an instruction, or a burst that is no
frame row. -/
theorem step_next (s t : State) (h : step s = .next t) :
    (heldGoesFirst s = true ∧ presentHeld s = .next t) ∨
      (heldGoesFirst s = false ∧ s.stream = [] ∧ t = s) ∨
      (∃ x rest i, heldGoesFirst s = false ∧ s.stream = x :: rest ∧ decode x = .ok i ∧
        exec i (setStream rest s) = .next t) ∨
      (∃ x rest bytes, heldGoesFirst s = false ∧ s.stream = x :: rest ∧ decode x = .error (.notOneFrame bytes) ∧
        receive bytes (setStream rest s) = .next t) := by
  cases hf : heldGoesFirst s with
  | true =>
    rw [step, if_pos hf] at h
    exact .inl ⟨rfl, h⟩
  | false =>
    cases hs : s.stream with
    | nil =>
      rw [step_nothing s hs hf] at h
      cases h
      exact .inr (.inl ⟨rfl, rfl, rfl⟩)
    | cons x rest =>
      obtain ⟨hok, herr⟩ := step_of_turn s x rest hs hf
      cases hd : decode x with
      | ok i =>
        rw [hok i hd] at h
        exact .inr (.inr (.inl ⟨x, rest, i, rfl, rfl, hd, h⟩))
      | error r =>
        obtain ⟨bytes⟩ := r
        rw [herr bytes hd] at h
        exact .inr (.inr (.inr ⟨x, rest, bytes, rfl, rfl, hd, h⟩))

/-- A run is its first step and then the others. -/
theorem run_of_step (k : Nat) (s u : State) (h : step s = .next u) :
    Host.Core.run Sys2Proof.core (k + 1) s = Host.Core.run Sys2Proof.core k u := by
  have hs : Sys2Proof.core.step s = .next u := h
  simp only [Host.Core.run, hs]

/-- A run that reaches a state took its first step. -/
theorem run_next (k : Nat) (s t : State) (h : Host.Core.run Sys2Proof.core (k + 1) s = .next t) :
    ∃ u, step s = .next u ∧ Host.Core.run Sys2Proof.core k u = .next t := by
  simp only [Host.Core.run] at h
  split at h
  · next u hu => exact ⟨u, hu, h⟩
  · cases h
  · cases h

/-- What every step keeps, every run keeps. -/
theorem run_keeps (P : State → Prop) (hstep : ∀ s t, P s → step s = .next t → P t) (k : Nat) (s t : State) (hs : P s)
    (h : Host.Core.run Sys2Proof.core k s = .next t) : P t := by
  induction k generalizing s with
  | zero => cases h; exact hs
  | succ k ih =>
    obtain ⟨u, hu, hr⟩ := run_next k s t h
    exact ih u (hstep s u hs hu) hr

end Sys2Proof.Machine
end

