-- ==== Sys2Proof/Tests/Slice0.lean ====
section
/-! SUPPORT. Tests. Expected values come from the spec's tables and examples (95_test_vectors.md, 30_encoding.md R82,
42_validator.md R171), not from the model; the witnesses at the end show states that meet the statements' hypotheses. -/

-- One theorem at a time: kernel evaluations side by side take a thread and its stack each.
set_option Elab.async false

namespace Sys2Proof.Tests

open Sys2Proof Sys2Proof.Machine

/-- The state a step answers, if it answers one. -/
def after : Host.Outcome State Fault Refusal → Option State
  | .next t => some t
  | .fault _ => none
  | .refused _ => none

/-- The fault a step stops with, if it faults. -/
def faultOf : Host.Outcome State Fault Refusal → Option Fault
  | .next _ => none
  | .fault f => some f
  | .refused _ => none

/-- The refusal a step stops with, if it is refused. -/
def refusalOf : Host.Outcome State Fault Refusal → Option Refusal
  | .next _ => none
  | .fault _ => none
  | .refused r => some r

/-- After `reset` with MAX_ATTEMPTS = 3 (the vectors' value, 95_test_vectors.md). -/
def idle3 : State := { State.reset with maxAttempts := 3 }

/-- Armed, holding the bytes given so far. -/
def holding (bytes : List Byte) : State :=
  { idle3 with st := .accum, buf := cellsOf bytes, n := BitVec.ofNat 8 bytes.length }

/-- Armed, with the bytes given so far, in the last of three attempts. -/
def lastAttempt (bytes : List Byte) : State := { holding bytes with att := 2 }

/-- In DONE with the bytes of a complete frame. -/
def delivered (bytes : List Byte) : State := { holding bytes with st := .done, res := validate bytes }

/-- Vector V-V4, a control ACK frame. -/
def ackFrame : List Byte := [0x02#8, 0x03#8, 0x00#8, 0x00#8, 0x12#8, 0xD6#8]

/-- Vector V-V8, a data frame. -/
def dataFrame : List Byte := [0x02#8, 0x03#8, 0x07#8, 0x1C#8, 0x61#8, 0xFE#8, 0xF1#8]

/-- 255 buffered bytes that cannot complete (vector V-A12). -/
def fullBytes : List Byte := [0x02#8, 0x03#8, 0x05#8] ++ List.replicate 252 0xAA#8

/-- 254 bytes of the longest frame, length byte 0xFF (vector V-A13, all but its last byte). -/
def almostLongest : List Byte := [0x02#8, 0x03#8, 0xFF#8, 0x41#8] ++ List.replicate 249 0x00#8 ++ [0xB9#8]

/-! ### Well-formedness: an ill-formed term for each check, refused -/

/-- A length byte that is neither 0 nor the length (R70, R71). -/
theorem test_illformed_control_length : Instr.wellFormed (.frameAck 0x07#8 0x12#8 0xD6#8) = false := by decide +kernel

/-- A control frame with a wrong checksum (V-V13's bytes swapped for an ACK). -/
theorem test_illformed_ack_checksum : Instr.wellFormed (.frameAck 0x00#8 0xD6#8 0x12#8) = false := by decide +kernel

theorem test_illformed_nack_checksum : Instr.wellFormed (.frameNack 0x06#8 0xBA#8 0x8E#8) = false := by decide +kernel

theorem test_illformed_illegal_checksum : Instr.wellFormed (.frameIllegal 0x06#8 0x41#8 0xB4#8) = false := by
  decide +kernel

/-- A data frame whose length byte is not its length. -/
theorem test_illformed_data_length : Instr.wellFormed (.frameData 0x08#8 0x1C#8 [0x61#8] 0xFE#8 0xF1#8) = false := by
  decide +kernel

theorem test_illformed_data_checksum : Instr.wellFormed (.frameData 0x07#8 0x1C#8 [0x61#8] 0xFE#8 0xF2#8) = false := by
  decide +kernel

/-- Six bytes with the ACK sentinel are no data frame (V-V2). -/
theorem test_illformed_data_sentinel : Instr.wellFormed (.frameData 0x06#8 0x00#8 [] 0xC2#8 0x82#8) = false := by
  decide +kernel

theorem test_illformed_header_good : Instr.wellFormed (.frameBadHeader 0x02#8 0x03#8 0x06#8 0x30#8 [] 0x41#8 0xB3#8) = false := by
  decide +kernel

theorem test_illformed_header_length : Instr.wellFormed (.frameBadHeader 0x01#8 0x03#8 0x00#8 0x30#8 [0x00#8] 0x41#8 0xB3#8) = false := by
  decide +kernel

/-- A right checksum is no bad checksum (V-V1). -/
theorem test_illformed_crc_good : Instr.wellFormed (.frameBadCrc 0x06#8 0x30#8 [] 0x41#8 0xB3#8) = false := by decide +kernel

theorem test_illformed_crc_length : Instr.wellFormed (.frameBadCrc 0x05#8 0x30#8 [] 0x41#8 0xB4#8) = false := by decide +kernel

/-! ### Decoding: words written out bit by bit from R82 and the frame rows -/

theorem test_decode_nop : decode (.word 0b00010100101#11) = .ok .nop := by decide +kernel

theorem test_decode_crcInit : decode (.word 0b00100000000#11) = .ok .crcInit := by decide +kernel

theorem test_decode_crcByte : decode (.word 0b01001000001#11) = .ok (.crcByte 0x41#8) := by decide +kernel

/-- `0x3A5` is ARM (R83). -/
theorem test_decode_arm : decode (.word 0b01110100101#11) = .ok .arm := by decide +kernel

theorem test_decode_rxByte : decode (.word 0b10011010110#11) = .ok (.rxByte 0xD6#8) := by decide +kernel

theorem test_decode_attemptEnd : decode (.word 0b10100000000#11) = .ok .attemptEnd := by decide +kernel

theorem test_decode_rxError : decode (.word 0b11000000000#11) = .ok .rxError := by decide +kernel

theorem test_decode_reserved111 : decode (.word 0b11100000000#11) = .ok .reserved111 := by decide +kernel

theorem test_decode_reset : decode .rst = .ok .reset := by decide +kernel

/-- V-V4 by the table's numbering: start code in bits 47:40. -/
theorem test_decode_frameAck : decodeTableWord 48 0x0203000012D6 = some (.frameAck 0x00#8 0x12#8 0xD6#8) := by decide +kernel

/-- V-V5. -/
theorem test_decode_frameNack : decodeTableWord 48 0x020300FF6AD9 = some (.frameNack 0x00#8 0x6A#8 0xD9#8) := by
  decide +kernel

/-- V-V1. -/
theorem test_decode_frameIllegal : decodeTableWord 48 0x0203063041B3 = some (.frameIllegal 0x06#8 0x41#8 0xB3#8) := by
  decide +kernel

/-- V-V8. -/
theorem test_decode_frameData : decode (.line dataFrame) = .ok (.frameData 0x07#8 0x1C#8 [0x61#8] 0xFE#8 0xF1#8) := by
  decide +kernel

/-- V-V11: header before checksum. -/
theorem test_decode_frameBadHeader : decode (.line [0x01#8, 0x03#8, 0x06#8, 0x30#8, 0x41#8, 0xB4#8]) =
    .ok (.frameBadHeader 0x01#8 0x03#8 0x06#8 0x30#8 [] 0x41#8 0xB4#8) := by decide +kernel

/-- V-V15: checksum before sentinel. -/
theorem test_decode_frameBadCrc : decode (.line [0x02#8, 0x03#8, 0x06#8, 0xFF#8, 0xBA#8, 0x8E#8]) =
    .ok (.frameBadCrc 0x06#8 0xFF#8 [] 0xBA#8 0x8E#8) := by decide +kernel

/-- V-A15: a byte behind the frame, so the burst is not one frame. -/
theorem test_decode_burst : decode (.line (dataFrame ++ [0x99#8])) = .error (.notOneFrame (dataFrame ++ [0x99#8])) := by
  decide +kernel

/-- Bits above bit 10 are no step word. -/
theorem test_decode_table_word : decodeTableWord 16 0x04D6 = some (.rxByte 0xD6#8) ∧ decodeTableWord 16 0x0800 = none := by
  decide +kernel

theorem test_fetch_word : after (step (idle3.withFetchWord 16 0x0300)) = some (holding []) := by decide +kernel

/-- The state some steps of the machine reach, if they reach one. -/
def ran (k : Nat) (s : State) : Option State := after (Host.Core.run Sys2Proof.core k s)

/-- With inputs to come. -/
def given (xs : List Input) (s : State) : State := { s with stream := xs }

/-! ### The CRC16 generator: the whole table T of 95_test_vectors.md section 2.3, and vectors of 2.1 and 2.2 -/

theorem test_crc_table_lower : (List.range 128).map (fun i => crcTable (BitVec.ofNat 8 i)) =
    [0x0000#16, 0x1189#16, 0x2312#16, 0x329B#16, 0x4624#16, 0x57AD#16, 0x6536#16, 0x74BF#16] ++
      [0x8C48#16, 0x9DC1#16, 0xAF5A#16, 0xBED3#16, 0xCA6C#16, 0xDBE5#16, 0xE97E#16, 0xF8F7#16] ++
      [0x1081#16, 0x0108#16, 0x3393#16, 0x221A#16, 0x56A5#16, 0x472C#16, 0x75B7#16, 0x643E#16] ++
      [0x9CC9#16, 0x8D40#16, 0xBFDB#16, 0xAE52#16, 0xDAED#16, 0xCB64#16, 0xF9FF#16, 0xE876#16] ++
      [0x2102#16, 0x308B#16, 0x0210#16, 0x1399#16, 0x6726#16, 0x76AF#16, 0x4434#16, 0x55BD#16] ++
      [0xAD4A#16, 0xBCC3#16, 0x8E58#16, 0x9FD1#16, 0xEB6E#16, 0xFAE7#16, 0xC87C#16, 0xD9F5#16] ++
      [0x3183#16, 0x200A#16, 0x1291#16, 0x0318#16, 0x77A7#16, 0x662E#16, 0x54B5#16, 0x453C#16] ++
      [0xBDCB#16, 0xAC42#16, 0x9ED9#16, 0x8F50#16, 0xFBEF#16, 0xEA66#16, 0xD8FD#16, 0xC974#16] ++
      [0x4204#16, 0x538D#16, 0x6116#16, 0x709F#16, 0x0420#16, 0x15A9#16, 0x2732#16, 0x36BB#16] ++
      [0xCE4C#16, 0xDFC5#16, 0xED5E#16, 0xFCD7#16, 0x8868#16, 0x99E1#16, 0xAB7A#16, 0xBAF3#16] ++
      [0x5285#16, 0x430C#16, 0x7197#16, 0x601E#16, 0x14A1#16, 0x0528#16, 0x37B3#16, 0x263A#16] ++
      [0xDECD#16, 0xCF44#16, 0xFDDF#16, 0xEC56#16, 0x98E9#16, 0x8960#16, 0xBBFB#16, 0xAA72#16] ++
      [0x6306#16, 0x728F#16, 0x4014#16, 0x519D#16, 0x2522#16, 0x34AB#16, 0x0630#16, 0x17B9#16] ++
      [0xEF4E#16, 0xFEC7#16, 0xCC5C#16, 0xDDD5#16, 0xA96A#16, 0xB8E3#16, 0x8A78#16, 0x9BF1#16] ++
      [0x7387#16, 0x620E#16, 0x5095#16, 0x411C#16, 0x35A3#16, 0x242A#16, 0x16B1#16, 0x0738#16] ++
      [0xFFCF#16, 0xEE46#16, 0xDCDD#16, 0xCD54#16, 0xB9EB#16, 0xA862#16, 0x9AF9#16, 0x8B70#16] := by
  decide +kernel

theorem test_crc_table_upper : (List.range 128).map (fun i => crcTable (BitVec.ofNat 8 (128 + i))) =
    [0x8408#16, 0x9581#16, 0xA71A#16, 0xB693#16, 0xC22C#16, 0xD3A5#16, 0xE13E#16, 0xF0B7#16] ++
      [0x0840#16, 0x19C9#16, 0x2B52#16, 0x3ADB#16, 0x4E64#16, 0x5FED#16, 0x6D76#16, 0x7CFF#16] ++
      [0x9489#16, 0x8500#16, 0xB79B#16, 0xA612#16, 0xD2AD#16, 0xC324#16, 0xF1BF#16, 0xE036#16] ++
      [0x18C1#16, 0x0948#16, 0x3BD3#16, 0x2A5A#16, 0x5EE5#16, 0x4F6C#16, 0x7DF7#16, 0x6C7E#16] ++
      [0xA50A#16, 0xB483#16, 0x8618#16, 0x9791#16, 0xE32E#16, 0xF2A7#16, 0xC03C#16, 0xD1B5#16] ++
      [0x2942#16, 0x38CB#16, 0x0A50#16, 0x1BD9#16, 0x6F66#16, 0x7EEF#16, 0x4C74#16, 0x5DFD#16] ++
      [0xB58B#16, 0xA402#16, 0x9699#16, 0x8710#16, 0xF3AF#16, 0xE226#16, 0xD0BD#16, 0xC134#16] ++
      [0x39C3#16, 0x284A#16, 0x1AD1#16, 0x0B58#16, 0x7FE7#16, 0x6E6E#16, 0x5CF5#16, 0x4D7C#16] ++
      [0xC60C#16, 0xD785#16, 0xE51E#16, 0xF497#16, 0x8028#16, 0x91A1#16, 0xA33A#16, 0xB2B3#16] ++
      [0x4A44#16, 0x5BCD#16, 0x6956#16, 0x78DF#16, 0x0C60#16, 0x1DE9#16, 0x2F72#16, 0x3EFB#16] ++
      [0xD68D#16, 0xC704#16, 0xF59F#16, 0xE416#16, 0x90A9#16, 0x8120#16, 0xB3BB#16, 0xA232#16] ++
      [0x5AC5#16, 0x4B4C#16, 0x79D7#16, 0x685E#16, 0x1CE1#16, 0x0D68#16, 0x3FF3#16, 0x2E7A#16] ++
      [0xE70E#16, 0xF687#16, 0xC41C#16, 0xD595#16, 0xA12A#16, 0xB0A3#16, 0x8238#16, 0x93B1#16] ++
      [0x6B46#16, 0x7ACF#16, 0x4854#16, 0x59DD#16, 0x2D62#16, 0x3CEB#16, 0x0E70#16, 0x1FF9#16] ++
      [0xF78F#16, 0xE606#16, 0xD49D#16, 0xC514#16, 0xB1AB#16, 0xA022#16, 0x92B9#16, 0x8330#16] ++
      [0x7BC7#16, 0x6A4E#16, 0x58D5#16, 0x495C#16, 0x3DE3#16, 0x2C6A#16, 0x1EF1#16, 0x0F78#16] := by
  decide +kernel

/-- The catalogue check value (R112). -/
theorem test_crc16_check_value :
    crc16 [0x31#8, 0x32#8, 0x33#8, 0x34#8, 0x35#8, 0x36#8, 0x37#8, 0x38#8, 0x39#8] = 0x2189#16 := by decide +kernel

theorem test_crcInit : (after (execCrcInit { idle3 with crc := 0xB341#16 })).map State.crc = some 0x0000#16 := by
  decide +kernel

theorem test_crcByte : (after (execCrcByte 0x56#8 { idle3 with crc := 0x1234#16 })).map State.crc = some 0x4006#16 := by
  decide +kernel

/-- The high half takes part. -/
theorem test_crcByte_high : (after (execCrcByte 0x00#8 { idle3 with crc := 0xFFFF#16 })).map State.crc = some 0x0F87#16 := by
  decide +kernel

/-! ### The synchronizer: vectors V-A1 to V-A19, V-Z1, one step each -/

theorem test_nop : after (execNop (holding [0x02#8])) = some (holding [0x02#8]) := by decide +kernel

/-- V-A2. -/
theorem test_arm_from_done : after (execArm (delivered ackFrame)) = some (holding []) := by decide +kernel

/-- V-A3. -/
theorem test_arm_in_accum : (after (execArm (holding [0x02#8]))).map statusWord = some 0x0041#16 := by decide +kernel

/-- The completing byte of V-V4. -/
theorem test_rxByte_completes : (after (execRxByte 0xD6#8 (holding (ackFrame.take 5)))).map statusWord = some 0x060A#16 := by
  decide +kernel

/-- V-A11. -/
theorem test_rxByte_idle : faultOf (execRxByte 0x02#8 idle3) = some .rxNotReady := by decide +kernel

/-- The third attempt of V-A5. -/
theorem test_attemptEnd_times_out : (after (execAttemptEnd { holding [] with att := 2 })).map statusWord = some 0x001E#16 := by
  decide +kernel

/-- V-A7. -/
theorem test_attemptEnd_idle : after (execAttemptEnd idle3) = some idle3 := by decide +kernel

/-- V-A9. -/
theorem test_rxError : (after (execRxError (holding [0x02#8, 0x03#8, 0x06#8]))).map statusWord = some 0x0322#16 := by
  decide +kernel

/-- V-A10. -/
theorem test_rxError_idle : after (execRxError idle3) = some idle3 := by decide +kernel

theorem test_reserved111 : refusalOf (execReserved111 idle3) = some .reservedOp := by decide +kernel

/-- V-Z1. -/
theorem test_reset : after (execReset { delivered ackFrame with crc := 0xB341#16, att := 1, viol := true }) = some idle3 := by
  decide +kernel

/-! ### The frame rows, on an armed block, one byte a step: the status words of 95_test_vectors.md section 4 -/

theorem test_frameAck : (ran 6 (given [encode (.frameAck 0x06#8 0xC2#8 0x82#8)] (holding []))).map statusWord =
    some 0x060A#16 := by decide +kernel

theorem test_frameNack : (ran 6 (given [encode (.frameNack 0x00#8 0x6A#8 0xD9#8)] (holding []))).map statusWord =
    some 0x060E#16 := by decide +kernel

theorem test_frameIllegal : (ran 6 (given [encode (.frameIllegal 0x00#8 0x91#8 0xE7#8)] (holding []))).map statusWord =
    some 0x0612#16 := by decide +kernel

/-- V-V16: seven bytes with 0x00 at offset 3 are data. -/
theorem test_frameData : (ran 7 (given [encode (.frameData 0x07#8 0x00#8 [0x01#8] 0xC9#8 0xAE#8)] (holding []))).map
    statusWord = some 0x0706#16 := by decide +kernel

/-- V-V10. -/
theorem test_frameBadHeader :
    (ran 6 (given [encode (.frameBadHeader 0x02#8 0x04#8 0x06#8 0x30#8 [] 0x41#8 0xB3#8)] (holding []))).map statusWord =
      some 0x0616#16 := by decide +kernel

/-- V-V13. -/
theorem test_frameBadCrc : (ran 6 (given [encode (.frameBadCrc 0x06#8 0x30#8 [] 0xB3#8 0x41#8)] (holding []))).map
    statusWord = some 0x061A#16 := by decide +kernel

/-- R90: the step in which a frame arrives runs one RX_BYTE. -/
theorem test_frame_first_step : (after (execFrameAck 0x00#8 0x12#8 0xD6#8 (holding []))).map (fun t => (statusWord t, t.held)) =
    some (0x0101#16, ackFrame.drop 1) := by decide +kernel

/-- V-A15: seven bytes are consumed, and the byte behind the frame stays with the environment, however long. -/
theorem test_burst_leaves_surplus : (ran 9 (given [.line (dataFrame ++ [0x99#8])] (holding []))).map
    (fun t => (statusWord t, t.held)) = some (0x0706#16, [0x99#8]) := by decide +kernel

/-- V-A15, just before the next `arm`: DONE with a data frame, the byte behind it held. -/
def leftByte : State := { delivered dataFrame with held := [0x99#8], stream := [.word 0x300#11] }

/-- V-A15: ARM itself leaves `n = 0` (R122), and the held byte then becomes `buf[0]`. -/
theorem test_arm_delivers_held : ran 1 leftByte = some { holding [] with held := [0x99#8] } ∧
    ran 2 leftByte = some (holding [0x99#8]) := by decide +kernel

/-- Held bytes go ahead of an RX_BYTE word and of ATTEMPT_END (R36, R236). -/
theorem test_held_before_environment_words :
    (ran 3 { idle3 with held := [0x02#8], stream := [.word 0x300#11, .word 0x403#11] }).map State.buf =
      some (cellsOf [0x02#8, 0x03#8]) ∧
    (ran 8 { idle3 with held := ackFrame, stream := [.word 0x300#11, .word 0x500#11] }).map (fun t => (t.res, t.att)) =
      some (.ack, 0) := by decide +kernel

/-- A host word comes between two held bytes: the second ARM restarts the accumulation and is a violation (R234). -/
theorem test_host_word_between_held_bytes :
    (ran 4 { idle3 with held := [0x02#8, 0x03#8], stream := [.word 0x300#11, .line [], .word 0x300#11] }).map
      (fun t => (t.buf, t.viol)) = some (cellsOf [0x03#8], true) := by decide +kernel

/-! ### Outputs and reference functions -/

/-- V-V9: the received and the computed checksum. -/
theorem test_checksum_outputs :
    crcRx (holding [0x01#8, 0x03#8, 0x06#8, 0x30#8, 0x41#8, 0xB3#8]) = .ok 0xB341#16 ∧
      crcCalc (holding [0x01#8, 0x03#8, 0x06#8, 0x30#8, 0x41#8, 0xB3#8]) = .ok 0x968C#16 := by decide +kernel

/-- V-V8: data `1C 61`. -/
theorem test_data_view : dataView (delivered dataFrame) = .ok [0x1C#8, 0x61#8] ∧
    dataLen (delivered dataFrame) = .ok 2 := by decide +kernel

/-- The frame view of V-V8, and none of a block still accumulating (notes/assumptions/26.md). -/
theorem test_frame_view : commandCode (delivered dataFrame) = .ok 0x1C#8 ∧ payloadView (delivered dataFrame) = .ok [0x61#8] ∧
    commandCode (holding (dataFrame.take 5)) = .error (.outputHasNoValue .frameView) := by decide +kernel

/-- The handshake and reset command frames (R171). -/
theorem test_encodeFrame : encodeFrame 0x00#8 [] = .ok [0x02#8, 0x03#8, 0x06#8, 0x00#8, 0xC2#8, 0x82#8] ∧
    encodeFrame 0xFF#8 [] = .ok [0x02#8, 0x03#8, 0x06#8, 0xFF#8, 0xBA#8, 0x8D#8] ∧
    encodeFrame 0x30#8 [] = .ok [0x02#8, 0x03#8, 0x06#8, 0x30#8, 0x41#8, 0xB3#8] := by decide +kernel

/-- Outside the open case I2 the document's loop ends as validation says, and a length-0 buffer of eight bytes is that
case. -/
theorem test_loopOutcome : loopOutcome ackFrame = .ack ∧ loopOutcome dataFrame = .data ∧
    oversizeZeroLength (ackFrame ++ [0x00#8, 0x00#8]) = true := by decide +kernel

/-- V-R6. -/
theorem test_encodeFrame_too_long : encodeFrame 0x33#8 (List.replicate 250 0x00#8) = .error .payloadTooLong := by
  decide +kernel

/-- Reserved codes in a status word are refused (I7, I8). -/
theorem test_status_reserved : readStatus 0x0026#16 = .error .reservedResultCode ∧
    readStatus 0x0003#16 = .error .reservedStateCode := by decide +kernel

/-- `rx.attempt` (R88) on two lines of a program, with a comment. -/
theorem test_assemble : assemble "arm ; wait\nrx.attempt 0x02, 3".toList =
    .ok [.word 0x300#11, .word 0x402#11, .word 0x403#11, .word 0x500#11] := by decide +kernel

/-! ### Witnesses: states and operands that meet the hypotheses of the statements, clause by clause -/

/-- A step that answers a state with a property does answer a state. -/
theorem next_of_after {α : Type} (o : Host.Outcome State Fault Refusal) (f : State → α) (v : α)
    (h : (after o).map f = some v) : ∃ t, o = .next t ∧ f t = v := by
  cases o with
  | next t => exact ⟨t, rfl, by simpa [after] using h⟩
  | fault r => simp [after] at h
  | refused r => simp [after] at h

/-- A block that holds bytes that do not complete meets the invariant. -/
theorem holding_inv (bytes : List Byte) (h : (BitVec.ofNat 8 bytes.length).toNat = bytes.length)
    (hc : bufferComplete bytes = false) : (holding bytes).Inv :=
  accumulating_inv _ bytes rfl rfl h hc rfl (by show 0 < 3; decide)

theorem lastAttempt_inv (bytes : List Byte) (h : (BitVec.ofNat 8 bytes.length).toNat = bytes.length)
    (hc : bufferComplete bytes = false) : (lastAttempt bytes).Inv :=
  accumulating_inv _ bytes rfl rfl h hc rfl (by show 2 < 3; decide)

/-- A block that delivered a frame meets the invariant. -/
theorem delivered_bytes_inv (bytes : List Byte) (h : (BitVec.ofNat 8 bytes.length).toNat = bytes.length)
    (hc : bufferComplete bytes = true) : (delivered bytes).Inv :=
  delivered_inv _ bytes rfl rfl h hc rfl (by show 0 < 3; decide)

theorem delivered_res (bytes : List Byte) : (delivered bytes).res = validate bytes := rfl

theorem armed_inv : (holding []).Inv := holding_inv [] (by decide) (by decide)

theorem armed_witness : (holding []).Armed := ⟨rfl, rfl, rfl, rfl, rfl, rfl, rfl⟩

theorem full_inv : (holding fullBytes).Inv := holding_inv _ (by decide +kernel) (by decide +kernel)

theorem ack_inv : (delivered ackFrame).Inv := delivered_bytes_inv _ (by decide +kernel) (by decide +kernel)

theorem data_inv : (delivered dataFrame).Inv := delivered_bytes_inv _ (by decide +kernel) (by decide +kernel)

theorem short_inv (len : Byte) (h : len = 0x01#8 ∨ len = 0x05#8) : (holding [0x02#8, 0x03#8, len]).Inv := by
  rcases h with rfl | rfl <;> exact holding_inv _ (by decide +kernel) (by decide +kernel)

/-- An invariant state with an input still to come. -/
theorem withStream_inv (s : State) (xs : List Input) (h : s.Inv) : (setStream xs s).Inv where
  canonical := h.canonical
  filled := h.filled
  idleClear := h.idleClear
  accumOpen := h.accumOpen
  accumIncomplete := h.accumIncomplete
  doneResult := h.doneResult
  validated := h.validated
  attemptsBounded := h.attemptsBounded
  attemptsExhausted := h.attemptsExhausted
  parameterLegal := h.parameterLegal

set_option maxRecDepth 8000 in
/-- RxByteStoresAndCompletes: the sixth byte of a control frame completes, the first byte does not, byte 255 completes
the longest frame, and byte 256 finds the buffer full. -/
theorem witness_RxByteStoresAndCompletes :
    ((holding (ackFrame.take 5)).Inv ∧ (holding (ackFrame.take 5)).st = .accum ∧
      (after (exec (.rxByte 0xD6#8) (holding (ackFrame.take 5)))).map State.st = some .done) ∧
    ((holding []).Inv ∧ (after (exec (.rxByte 0x02#8) (holding []))) = some (holding [0x02#8])) ∧
    ((holding almostLongest).Inv ∧ (holding almostLongest).n.toNat = 254 ∧
      (after (exec (.rxByte 0x4D#8) (holding almostLongest))).map State.res = some .data) ∧
    ((holding fullBytes).Inv ∧ (holding fullBytes).st = .accum ∧ (holding fullBytes).n.toNat = 255) :=
  ⟨⟨holding_inv _ (by decide +kernel) (by decide +kernel), rfl, by decide +kernel⟩, ⟨armed_inv, by decide +kernel⟩,
    ⟨holding_inv _ (by decide +kernel) (by decide +kernel), by decide +kernel, by decide +kernel⟩,
    ⟨full_inv, rfl, by decide +kernel⟩⟩

/-- RxByteOutsideAccumIsStuck, FrameBytesWaitWhileNotReady: a block not in ACCUM, and a frame row's wire bytes. -/
theorem witness_outside_accum : idle3.st ≠ .accum ∧ (delivered ackFrame).st ≠ .accum ∧
    encode (.frameAck 0x00#8 0x12#8 0xD6#8) = .line ackFrame := by decide +kernel

set_option maxRecDepth 8000 in
/-- RxByteLeavesOtherCellsAndRegisters: a byte stored in the last cell, and one discarded. -/
theorem witness_RxByteLeavesOtherCellsAndRegisters :
    (∃ t, exec (.rxByte 0x4D#8) (holding almostLongest) = .next t ∧ t.st = .done) ∧
      (holding almostLongest).n.toNat < 255 ∧
      (∃ t, exec (.rxByte 0xAA#8) (holding fullBytes) = .next t ∧ t.st = .accum) :=
  ⟨next_of_after _ State.st _ (by decide +kernel), by decide +kernel, next_of_after _ State.st _ (by decide +kernel)⟩

/-- AttemptEndCountsAndTimesOut, RxErrorAbortsTheAccumulation: the last attempt, an earlier one, and none running. -/
theorem witness_AttemptEndCountsAndTimesOut :
    ((holding []).st = .accum ∧ ({ holding [] with att := 2 }).att + 1 = (holding []).maxAttempts) ∧
      (holding []).att + 1 ≠ (holding []).maxAttempts ∧ idle3.st ≠ .accum := by decide

/-- ReservedOpIsRefused. -/
theorem witness_ReservedOpIsRefused : (0x7FF#11 : StepWord).extractLsb' 8 3 = 0b111#3 := by decide

/-- ControlFramesGiveTheirResult: each frame with length byte 0 and with length byte 6. -/
theorem witness_ControlFramesGiveTheirResult : (holding []).Armed ∧
    Instr.wellFormed (.frameAck 0x00#8 0x12#8 0xD6#8) = true ∧ Instr.wellFormed (.frameAck 0x06#8 0xC2#8 0x82#8) = true ∧
    Instr.wellFormed (.frameNack 0x00#8 0x6A#8 0xD9#8) = true ∧ Instr.wellFormed (.frameNack 0x06#8 0xBA#8 0x8D#8) = true ∧
    Instr.wellFormed (.frameIllegal 0x00#8 0x91#8 0xE7#8) = true ∧
    Instr.wellFormed (.frameIllegal 0x06#8 0x41#8 0xB3#8) = true :=
  ⟨armed_witness, by decide +kernel⟩

set_option maxRecDepth 8000 in
/-- DataAndBadFramesGiveTheirResult: the shortest and the longest data frame, and a bad frame of each kind. -/
theorem witness_DataAndBadFramesGiveTheirResult : (holding []).Armed ∧
    Instr.wellFormed (.frameData 0x06#8 0x15#8 [] 0xEE#8 0xC5#8) = true ∧
    Instr.wellFormed (.frameData 0xFF#8 0x41#8 (List.replicate 249 0x00#8) 0xB9#8 0x4D#8) = true ∧
    Instr.wellFormed (.frameBadHeader 0x02#8 0x04#8 0x06#8 0x30#8 [] 0x41#8 0xB3#8) = true ∧
    Instr.wellFormed (.frameBadCrc 0x00#8 0x15#8 [] 0xFF#8 0xFF#8) = true :=
  ⟨armed_witness, by decide +kernel⟩

/-- A block four bytes into a frame, with two bytes held. -/
def holdingBack : State := { holding (dataFrame.take 4) with held := [0xAA#8, 0xBB#8] }

/-- FrameRowsLeaveTheRestAlone: a frame that arrives at an armed block. FrameEqualsItsRxByteSteps, its first half: all six
bytes of a frame at an armed block, which complete; and, behind two held bytes, the first three, which complete. -/
theorem witness_FrameEqualsItsRxByteSteps :
    encode (.frameAck 0x00#8 0x12#8 0xD6#8) = .line ackFrame ∧
    (∃ t, exec (.frameAck 0x00#8 0x12#8 0xD6#8) (holding []) = .next t) ∧
    ((holding []).st = .accum ∧ (holding []).viol = false ∧ 6 ≤ ((holding []).held ++ ackFrame).length ∧
      (∃ t, Host.Core.run Sys2Proof.core 6
          { holding [] with
            held := [], stream := (((holding []).held ++ ackFrame).take 6).map (fun b => encode (.rxByte b)) } =
        .next t ∧ t.st = .done)) ∧
    holdingBack.st = .accum ∧ holdingBack.viol = false ∧ 3 ≤ (holdingBack.held ++ ackFrame).length ∧
    (∃ t, Host.Core.run Sys2Proof.core 3
        { holdingBack with
          held := [], stream := ((holdingBack.held ++ ackFrame).take 3).map (fun b => encode (.rxByte b)) } =
      .next t ∧ t.st = .done) :=
  ⟨by decide +kernel, ⟨_, rfl⟩,
    ⟨rfl, rfl, by decide, next_of_after _ State.st _ (by decide +kernel)⟩, rfl, rfl, by decide,
    next_of_after _ State.st _ (by decide +kernel)⟩

/-- FrameEqualsItsRxByteSteps, its second half: ARM, two bytes with a CRC operation between, and a word behind them. -/
theorem witness_FrameEqualsItsRxByteSteps_interleaved :
    idle3.held = [] ∧ idle3.viol = false ∧
    (∀ x ∈ ([.word 0x300#11, .word 0x402#11, .word 0x201#11, .word 0x403#11] : List Input),
      (∀ bytes, x ≠ .line bytes) ∧ decode x ≠ .ok .attemptEnd ∧ decode x ≠ .ok .rxError) ∧
    ∃ t, Host.Core.run Sys2Proof.core 4
        { idle3 with stream := [.word 0x300#11, .word 0x402#11, .word 0x201#11, .word 0x403#11] ++ [.rst] } = .next t ∧
      t.viol = false :=
  ⟨rfl, rfl, by simp; decide +kernel, next_of_after _ State.viol _ (by decide +kernel)⟩

/-- HeldBytesAreDeliveredWhenReady: a frame waits while the block is idle; ready with bytes held, the stream is empty, has
each of the three words that wait, or has a burst. -/
theorem witness_HeldBytesAreDeliveredWhenReady :
    ((given [.line ackFrame] idle3).stream = .line ackFrame :: [] ∧
      decode (.line ackFrame) = .ok (.frameAck 0x00#8 0x12#8 0xD6#8) ∧ rxReady (given [.line ackFrame] idle3) = false ∧
      ∃ t, step (given [.line ackFrame] idle3) = .next t ∧ t.held = ackFrame) ∧
    rxReady holdingBack = true ∧ holdingBack.held = 0xAA#8 :: [0xBB#8] ∧ holdingBack.stream = [] ∧
    (given [.line [0x99#8]] holdingBack).stream = .line [0x99#8] :: [] ∧
    decode (.word 0x402#11) = .ok (.rxByte 0x02#8) ∧ decode (.word 0x500#11) = .ok .attemptEnd ∧
    decode (.word 0x600#11) = .ok .rxError :=
  ⟨⟨rfl, by decide +kernel, rfl, next_of_after _ State.held _ (by decide +kernel)⟩, rfl, rfl, rfl, rfl, by decide +kernel,
    by decide +kernel, by decide +kernel⟩

/-- DecodeInvertsEncode: a step word and a frame. -/
theorem witness_DecodeInvertsEncode : Instr.wellFormed (.rxByte 0xFF#8) = true ∧
    Instr.wellFormed (.frameData 0x07#8 0x1C#8 [0x61#8] 0xFE#8 0xF1#8) = true := by decide +kernel

/-- EveryDecodedInputIsItsInstruction: a word with an operand, a word with ignored bits, rst, and a frame. -/
theorem witness_EveryDecodedInputIsItsInstruction :
    decode (.word 0x4D6#11) = .ok (.rxByte 0xD6#8) ∧ decode (.word 0x3A5#11) = .ok .arm ∧
      decode .rst = .ok .reset ∧ decode (.line dataFrame) = .ok (.frameData 0x07#8 0x1C#8 [0x61#8] 0xFE#8 0xF1#8) := by
  decide +kernel

/-- StepRunsTheDecodedInstruction, BlockHoldsItsStateBetweenWords, FetchWordRunsNext: nothing held; and a word that would
wait, placed before held bytes. -/
theorem witness_step :
    (setStream [.word 0x300#11] idle3).stream = .word 0x300#11 :: [] ∧ decode (.word 0x300#11) = .ok .arm ∧
      (setStream [.line [0x99#8]] idle3).stream = .line [0x99#8] :: [] ∧
      decode (.line [0x99#8]) = .error (.notOneFrame [0x99#8]) ∧ idle3.stream = [] ∧ idle3.held = [] ∧
      decodeTableWord 16 0x0300 = some .arm ∧ decodeTableWord 16 0x0500 = some .attemptEnd ∧
      (holding []).st = .accum := by decide +kernel

/-- StepKeepsTheInvariant, StepKeepsTheResultExplained, StepKeepsTheBufferCanonical, ParameterNeverChanges: a step that
completes a frame, and one that leaves a delivered frame alone. -/
theorem witness_StepKeepsTheInvariant :
    (setStream [.word 0x4D6#11] (holding (ackFrame.take 5))).Inv ∧
    (setStream [.word 0x4D6#11] (holding (ackFrame.take 5))).ResultExplained ∧
    Memory.wf (setStream [.word 0x4D6#11] (holding (ackFrame.take 5))).buf ∧
    (∃ t, step (setStream [.word 0x4D6#11] (holding (ackFrame.take 5))) = .next t ∧ t.res = .ack) ∧
    (delivered ackFrame).Inv ∧ (delivered ackFrame).ResultExplained ∧
    (∃ t, step (delivered ackFrame) = .next t) := by
  have h1 := withStream_inv _ [.word 0x4D6#11] (holding_inv (ackFrame.take 5) (by decide +kernel) (by decide +kernel))
  have h2 : (setStream [.word 0x4D6#11] (holding (ackFrame.take 5))).ResultExplained := fun h => by cases h
  have h3 : (delivered ackFrame).ResultExplained := fun _ => ⟨ackFrame, by decide +kernel, (delivered_res _).symm⟩
  exact ⟨h1, h2, h1.canonical, ⟨_, rfl, by decide +kernel⟩, ack_inv,
    h3, ⟨_, rfl⟩⟩

/-- StepAnswersExactlyWhenDutiesAreKept: a duty kept and a duty broken, both from invariant states. -/
theorem witness_StepAnswersExactlyWhenDutiesAreKept :
    (setStream [.word 0x402#11] (holding [])).Inv ∧ keepsDuty (setStream [.word 0x402#11] (holding [])) ∧
      (setStream [.word 0x402#11] (delivered ackFrame)).Inv ∧
      ¬ keepsDuty (setStream [.word 0x402#11] (delivered ackFrame)) :=
  ⟨withStream_inv _ _ armed_inv, rfl, withStream_inv _ _ ack_inv, fun h => by cases h⟩

/-- UnitsShareNoState, SynchronizerNeverReadsCrc: an operation of each unit, with a next state, a fault and a refusal. -/
theorem witness_UnitsShareNoState :
    (∃ t, exec (.crcByte 0x01#8) (holding []) = .next t) ∧
      (∃ t, exec (.rxByte 0x01#8) (holding []) = .next t) ∧ exec (.rxByte 0x01#8) idle3 = .fault .rxNotReady ∧
      exec .reserved111 idle3 = .refused .reservedOp := ⟨⟨_, rfl⟩, ⟨_, rfl⟩, rfl, rfl⟩

/-- ResultLeftOnlyByArmOrReset. -/
theorem witness_ResultLeftOnlyByArmOrReset : (delivered ackFrame).st = .done ∧
    (∃ t, exec .attemptEnd (delivered ackFrame) = .next t) ∧
    (∃ t, exec (.frameAck 0x00#8 0x12#8 0xD6#8) (delivered ackFrame) = .next t) := ⟨rfl, ⟨_, rfl⟩, ⟨_, rfl⟩⟩

/-- ViolationIsStickyUntilReset: reset, ARM in ACCUM, and ARM outside it with the flag set. -/
theorem witness_ViolationIsStickyUntilReset :
    (∃ t, exec .reset { holding [] with viol := true } = .next t) ∧ (holding []).st = .accum ∧
      (∃ t, exec .arm (holding []) = .next t) ∧ ¬ (Instr.arm = .arm ∧ idle3.st = .accum) ∧
      (∃ t, exec .arm { idle3 with viol := true } = .next t) :=
  ⟨⟨_, rfl⟩, rfl, ⟨_, rfl⟩, by decide +kernel, ⟨_, rfl⟩⟩

/-- ResultEntryIsPrecise: RX_ERROR in ACCUM changes res. -/
theorem witness_ResultEntryIsPrecise : (holding []).Inv ∧
    ∃ t, exec .rxError (holding []) = .next t ∧ t.res ≠ (holding []).res :=
  ⟨armed_inv, ⟨_, rfl, by decide +kernel⟩⟩

/-- A run of three attempts with a byte and a CRC operation between. -/
def threeAttempts : State :=
  given [.word 0x402#11, .word 0x500#11, .word 0x100#11, .word 0x500#11, .word 0x500#11] (holding [])

/-- EnoughAttemptsEndEveryAccumulation. -/
theorem witness_EnoughAttemptsEndEveryAccumulation : threeAttempts.Safe ∧ threeAttempts.st = .accum ∧
    (∀ x ∈ threeAttempts.stream, decode x ≠ .ok .arm ∧ decode x ≠ .ok .reset) ∧
    threeAttempts.maxAttempts - threeAttempts.att ≤
      threeAttempts.stream.countP (fun x => decide (decode x = .ok .attemptEnd)) ∧
    ∃ t, Host.Core.run Sys2Proof.core 5 threeAttempts = .next t ∧ t.stream = [] :=
  ⟨⟨withStream_inv _ _ armed_inv, rfl⟩, rfl, by decide +kernel, by decide +kernel,
    next_of_after _ State.stream _ (by decide +kernel)⟩

/-- SilentDeviceTimesOut. -/
theorem witness_SilentDeviceTimesOut : (holding []).Armed ∧ 1 ≤ (holding []).maxAttempts := ⟨armed_witness, by decide⟩

/-- ShortLengthByteNeverCompletes: the two ends of 1..5, and the two operations that end it. -/
theorem witness_ShortLengthByteNeverCompletes :
    (holding [0x02#8, 0x03#8, 0x01#8]).Inv ∧ cellAt (holding [0x02#8, 0x03#8, 0x01#8]).buf 2 = some 0x01#8 ∧
      (∃ t, exec (.rxByte 0xAA#8) (holding [0x02#8, 0x03#8, 0x01#8]) = .next t) ∧
      (holding [0x02#8, 0x03#8, 0x05#8]).Inv ∧ cellAt (holding [0x02#8, 0x03#8, 0x05#8]).buf 2 = some 0x05#8 ∧
      (∃ t, exec .rxError (holding [0x02#8, 0x03#8, 0x05#8]) = .next t ∧ t.st = .done) ∧
      (lastAttempt [0x02#8, 0x03#8, 0x05#8]).Inv ∧
      (∃ t, exec .attemptEnd (lastAttempt [0x02#8, 0x03#8, 0x05#8]) = .next t ∧ t.st = .done) :=
  ⟨short_inv _ (.inl rfl), by decide +kernel, ⟨_, rfl⟩, short_inv _ (.inr rfl), by decide +kernel, ⟨_, rfl, rfl⟩,
    lastAttempt_inv _ (by decide +kernel) (by decide +kernel), ⟨_, rfl, rfl⟩⟩

set_option maxRecDepth 8000 in
/-- FrameCompletesAtItsLength: length 0 at six bytes, and 255 at the last byte. -/
theorem witness_FrameCompletesAtItsLength :
    (holding (ackFrame.take 5)).Inv ∧
      (∃ t, exec (.rxByte 0xD6#8) (holding (ackFrame.take 5)) = .next t ∧ cellAt t.buf 2 = some 0x00#8) ∧
      (holding almostLongest).Inv ∧
      (∃ t, exec (.rxByte 0x4D#8) (holding almostLongest) = .next t ∧ cellAt t.buf 2 = some 0xFF#8) :=
  ⟨holding_inv _ (by decide +kernel) (by decide +kernel), ⟨_, rfl, by decide +kernel⟩,
    holding_inv _ (by decide +kernel) (by decide +kernel),
    next_of_after _ (fun t => cellAt t.buf 2) _ (by decide +kernel)⟩

/-- FullBufferDiscardsAndNeverCompletes. -/
theorem witness_FullBufferDiscardsAndNeverCompletes : (holding fullBytes).Inv ∧ (holding fullBytes).st = .accum ∧
    (holding fullBytes).n.toNat = 255 := ⟨full_inv, rfl, by decide +kernel⟩

/-- CrcIsLinearAndBijective: two sequences of equal length. -/
theorem witness_CrcIsLinearAndBijective : ([0x01#8, 0x80#8] : List Byte).length = ([0xFF#8, 0x00#8] : List Byte).length := rfl

/-- A byte received between two folded ones (program P5). -/
def foldAcross : State := given [.word 0x100#11, .word 0x202#11, .word 0x402#11, .word 0x203#11] (holding [])

/-- GeneratorComputesCrc16UnderInterleaving. -/
theorem witness_GeneratorComputesCrc16UnderInterleaving :
    foldAcross.stream = encode .crcInit :: [.word 0x202#11, .word 0x402#11, .word 0x203#11] ∧
      (∀ x ∈ ([.word 0x202#11, .word 0x402#11, .word 0x203#11] : List Input),
        decode x ≠ .ok .crcInit ∧ decode x ≠ .ok .reset) ∧
      ∃ t, Host.Core.run Sys2Proof.core 4 foldAcross = .next t ∧ (t.stream, t.viol, t.crc) = ([], false, 0x012B#16) :=
  ⟨by decide +kernel, by decide +kernel, next_of_after _ (fun t => (t.stream, t.viol, t.crc)) _ (by decide +kernel)⟩

/-- ChecksumPassesExactlyOnZeroResidue: a frame that passes, and one that does not. -/
theorem witness_ChecksumPassesExactlyOnZeroResidue : 6 ≤ ackFrame.length ∧ ackFrame[0]? = some 0x02#8 ∧
    ackFrame[1]? = some 0x03#8 ∧ validate ackFrame ≠ .checksum ∧
    validate [0x02#8, 0x03#8, 0x06#8, 0x30#8, 0x41#8, 0xB4#8] = .checksum := by decide +kernel

/-- EncoderEmitsTheFrame: the longest payload, and one byte more. -/
theorem witness_EncoderEmitsTheFrame : 6 + (List.replicate 249 0x00#8).length ≤ 255 ∧
    255 < 6 + (List.replicate 250 0x00#8).length := by decide +kernel

set_option maxRecDepth 8000 in
/-- EncodedFrameRoundTrips: the empty payload with a sentinel, and the longest payload. -/
theorem witness_EncodedFrameRoundTrips : (holding []).Armed ∧ encodeFrame 0x00#8 [] = .ok [0x02#8, 0x03#8, 0x06#8, 0x00#8, 0xC2#8, 0x82#8] ∧
    encodeFrame 0x41#8 (List.replicate 249 0x00#8) = .ok (almostLongest ++ [0x4D#8]) :=
  ⟨armed_witness, by decide +kernel, by decide +kernel⟩

/-- SingleByteCorruptionOutcomes: each position's clause, and each clause of the length byte, on `encode(0x33, p)` of
nine bytes (vector V-R4) and of six (V-R1). -/
theorem witness_SingleByteCorruptionOutcomes : (holding []).Armed ∧
    encodeFrame 0x33#8 [0x01#8, 0x02#8, 0x03#8] =
      .ok [0x02#8, 0x03#8, 0x09#8, 0x33#8, 0x01#8, 0x02#8, 0x03#8, 0x6A#8, 0x58#8] ∧
    encodeFrame 0x33#8 [] = .ok [0x02#8, 0x03#8, 0x06#8, 0x33#8, 0xDA#8, 0x81#8] ∧
    (0x02#8 : Byte) ≠ 0x03#8 ∧ (0x09#8 : Byte) ≠ 0x00#8 ∧ (0x09#8 : Byte) ≠ 0x06#8 ∧ (0x09#8 : Byte) ≠ 0x08#8 ∧
    (0x09#8 : Byte) ≠ 0x01#8 ∧ (0x09#8 : Byte) ≠ 0x05#8 ∧ (0x09#8 : Byte) ≠ 0x0A#8 ∧ (0x06#8 : Byte) ≠ 0x00#8 ∧
    (0x33#8 : Byte) ≠ 0x30#8 := ⟨armed_witness, by decide +kernel⟩

/-- BlockAgreesWithTheDocumentLoop: a frame over two reads, reads that run out before the last attempt, and a timeout in
the third attempt. -/
theorem witness_BlockAgreesWithTheDocumentLoop : (holding []).Armed ∧ 1 ≤ (holding []).maxAttempts ∧
    noSurplus [] [ackFrame.take 3, ackFrame.drop 3] ∧
    documentLoop 3 [] 0 [ackFrame.take 3, ackFrame.drop 3] = .ended .ack ackFrame 1 ∧
    noSurplus [] [[0x02#8], []] ∧ documentLoop 3 [] 0 [[0x02#8], []] = .reading [0x02#8] 2 ∧
    noSurplus [] [[0x02#8], [], [0x03#8]] ∧
    documentLoop 3 [] 0 [[0x02#8], [], [0x03#8]] = .ended .timeout [0x02#8, 0x03#8] 3 :=
  ⟨armed_witness, by decide, ⟨by decide +kernel, fun _ => ⟨by decide +kernel, fun _ => trivial⟩⟩, by decide +kernel,
    ⟨by decide +kernel, fun _ => ⟨by decide +kernel, fun _ => trivial⟩⟩, by decide +kernel,
    ⟨by decide +kernel, fun _ => ⟨by decide +kernel, fun _ => ⟨by decide +kernel, fun _ => trivial⟩⟩⟩, by decide +kernel⟩

/-- ReadPortGivesExactlyTheBufferedBytes, AttemptCounterFitsItsWidth, ChecksumOutputsShowTheBuffer: blocks with fewer
than three bytes, with three, with six and with 255. -/
theorem witness_ReadPortGivesExactlyTheBufferedBytes :
    ((holding []).Inv ∧ (holding []).n.toNat < 3) ∧
    ((holding [0x02#8, 0x03#8, 0x05#8]).Inv ∧ 3 ≤ (holding [0x02#8, 0x03#8, 0x05#8]).n.toNat) ∧
    ((delivered ackFrame).Inv ∧ ackFrame.length = (delivered ackFrame).n.toNat ∧
      (∀ i, cellAt (delivered ackFrame).buf i = ackFrame[i]?) ∧ 6 ≤ (delivered ackFrame).n.toNat) ∧
    ((holding fullBytes).Inv ∧ (holding fullBytes).n.toNat ≤ (0xFF#8 : Byte).toNat) :=
  ⟨⟨armed_inv, by decide⟩, ⟨short_inv _ (.inr rfl), by decide +kernel⟩,
    ⟨ack_inv, by decide +kernel, cellAt_cellsOf ackFrame, by decide +kernel⟩, ⟨full_inv, by decide +kernel⟩⟩

/-- DataViewsOfADeliveredFrame: a DATA result, a completed frame without data, and a frame not completed. -/
theorem witness_DataViewsOfADeliveredFrame : (delivered dataFrame).Inv ∧ (delivered dataFrame).st = .done ∧
    (delivered dataFrame).res.byValidation = true ∧ (delivered dataFrame).res = .data ∧
    (delivered ackFrame).Inv ∧ (delivered ackFrame).res.byValidation = true ∧
    ¬ ((delivered ackFrame).st = .done ∧ (delivered ackFrame).res = .data) ∧
    (holding []).Inv ∧ ¬ ((holding []).st = .done ∧ (holding []).res.byValidation = true) :=
  ⟨data_inv, rfl, by decide +kernel, by decide +kernel, ack_inv, by decide +kernel, by decide +kernel, armed_inv,
    by decide +kernel⟩

/-- AssemblerFollowsTheSyntaxTable: a payload that fits, one too long, the two ends of the immediates, and an accepted
immediate of each form. -/
theorem witness_AssemblerFollowsTheSyntaxTable :
    encodeFrame 0x00#8 [] = .ok [0x02#8, 0x03#8, 0x06#8, 0x00#8, 0xC2#8, 0x82#8] ∧
    255 < 6 + (List.replicate 250 0x00#8).length ∧ parseImmediate "255".toList = .ok 0xFF#8 ∧
    parseImmediate "0xFF".toList = .ok 0xFF#8 ∧ parseImmediate "256".toList = .error .badImmediate := by decide +kernel

end Sys2Proof.Tests
end

section
/-! SUPPORT. A buffer in canonical form is fixed by its cells, so an invariant state's buffer is exactly the bytes it
reads as (10_state.md R34 (b), 20_memory.md R51). -/

namespace Sys2Proof.Machine

/-- In a buffer in canonical form the entries are the cells that hold a value. -/
theorem mem_iff_cellAt (m : Memory) (h : Memory.wf m) (c : Host.Cell) : c ∈ m ↔ cellAt m c.1 = some c.2 := by
  induction m with
  | nil => simp
  | cons d m ih =>
    have ih := ih (wf_tail _ _ h)
    have hlt : ∀ e ∈ m, d.1 < e.1 := fun e he =>
      (List.pairwise_cons.1 h.1).1 e.1 (List.mem_map_of_mem he)
    by_cases hk : d.1 = c.1
    · have hnot : c ∉ m := fun hc => (hlt c hc).ne hk
      rw [cellAt, if_pos hk, List.mem_cons, or_iff_left hnot, Option.some.injEq, Prod.ext_iff]
      exact ⟨fun hc => hc.2.symm, fun hv => ⟨hk.symm, hv.symm⟩⟩
    · have hne : c ≠ d := fun hc => hk (by rw [hc])
      rw [cellAt, if_neg hk, List.mem_cons, or_iff_right hne, ih]

/-- Two buffers in canonical form with the same cells are the same. -/
theorem memory_ext (m m' : Memory) (h : Memory.wf m) (h' : Memory.wf m') (hc : ∀ i, cellAt m i = cellAt m' i) :
    m = m' := by
  have : Std.Irrefl (fun c d : Host.Cell => c.1 < d.1) := ⟨fun c => lt_irrefl c.1⟩
  refine List.Pairwise.eq_of_mem_iff (List.pairwise_map.1 h.1) (List.pairwise_map.1 h'.1) fun c => ?_
  rw [mem_iff_cellAt m h, mem_iff_cellAt m' h', hc]

/-- A buffer in canonical form is the bytes its cells hold. -/
theorem eq_cellsOf (m : Memory) (bytes : List Byte) (h : Memory.wf m) (hlen : bytes.length ≤ 255)
    (hc : ∀ i, cellAt m i = bytes[i]?) : m = cellsOf bytes :=
  memory_ext _ _ h (cellsOf_wf _ hlen) fun i => by rw [hc, cellAt_cellsOf]

/-- The buffer of an invariant state is `n` bytes, from index 0 on, and they are its raw frame. -/
theorem State.Inv.exists_bytes {s : State} (h : s.Inv) :
    ∃ bytes, s.buf = cellsOf bytes ∧ s.n.toNat = bytes.length ∧ rawFrame s = .ok bytes := by
  have hn := s.n.isLt
  obtain ⟨bytes, hread, hlen, hbelow⟩ := memReadFrom_filled s.buf 0 s.n.toNat (by omega)
    fun j hj => (h.filled _).2 (by omega)
  refine ⟨bytes, eq_cellsOf _ _ h.canonical (by omega) fun i => ?_, hlen.symm, hread⟩
  by_cases hi : i < s.n.toNat
  · simpa using hbelow i hi
  · rw [List.getElem?_eq_none (by omega)]
    exact Option.not_isSome_iff_eq_none.1 fun hs => hi ((h.filled i).1 hs)

/-- No complete frame is seen in ACCUM (20_memory.md R59), of the bytes the buffer holds. -/
theorem State.Inv.not_bufferComplete {s : State} (h : s.Inv) (hst : s.st = .accum) {bytes : List Byte}
    (hbuf : s.buf = cellsOf bytes) (hn : s.n.toNat = bytes.length) : bufferComplete bytes = false := by
  unfold bufferComplete
  split
  · next len hl =>
    rw [← hn]
    exact h.accumIncomplete hst len (by rw [hbuf, cellAt_cellsOf, hl])
  · rfl

end Sys2Proof.Machine
end

section
/-! SUPPORT. What every instruction and every step keeps, from what each shared operation keeps. -/

namespace Sys2Proof.Machine

/-- A property that every operation of the block keeps but ARM and RESET, and that every change of the driver's stream
and of the held bytes keeps. -/
structure KeptWithoutRestart (P : State → Prop) : Prop where
  crc : ∀ s c, P s → P (setCrc c s)
  held : ∀ s bs, P s → P (setHeld bs s)
  stream : ∀ s xs, P s → P (setStream xs s)
  byte : ∀ s t b, s.st = .accum → P s → consumeByte b s = .next t → P t
  attempt : ∀ s, s.st = .accum → s.att + 1 ≠ s.maxAttempts → P s → P (countAttempt s)
  timeout : ∀ s, s.st = .accum → s.att + 1 = s.maxAttempts → P s → P (enterResult .timeout (countAttempt s))
  io : ∀ s, s.st = .accum → P s → P (enterResult .io s)

/-- A property that ARM and RESET keep too. -/
structure KeptByOperations (P : State → Prop) : Prop extends KeptWithoutRestart P where
  arm : ∀ s, P s → P (startAccumulation (recordViolation (s.st == .accum) s))
  reset : ∀ s, P s → P (resetBlock s)

variable {P : State → Prop} {s t : State}

theorem KeptWithoutRestart.receive (k : KeptWithoutRestart P) (bytes : List Byte) (hs : P s)
    (h : receive bytes s = .next t) : P t :=
  receive_keeps P k.held k.byte bytes s t hs h

/-- An instruction other than ARM and RESET keeps what the operations keep. -/
theorem KeptWithoutRestart.exec (k : KeptWithoutRestart P) (i : Instr) (harm : i ≠ .arm) (hreset : i ≠ .reset)
    (hs : P s) (h : exec i s = .next t) : P t := by
  cases i with
  | nop => cases h; exact hs
  | crcInit | crcByte => cases h; exact k.crc s _ hs
  | arm => exact absurd rfl harm
  | rxByte b =>
    obtain ⟨hst, hc⟩ := execRxByte_next b s t h
    exact k.byte s t b hst hs hc
  | attemptEnd =>
    change execAttemptEnd s = .next t at h
    rcases execAttemptEnd_cases s with ⟨_, he⟩ | ⟨hst, hm, he⟩ | ⟨hst, hm, he⟩ <;> rw [he] at h <;> cases h
    · exact hs
    · exact k.attempt s hst hm hs
    · exact k.timeout s hst hm hs
  | rxError =>
    change execRxError s = .next t at h
    rcases execRxError_cases s with ⟨_, he⟩ | ⟨hst, he⟩ <;> rw [he] at h <;> cases h
    · exact hs
    · exact k.io s hst hs
  | reserved111 => cases h
  | reset => exact absurd rfl hreset
  | frameAck | frameNack | frameIllegal | frameData | frameBadHeader | frameBadCrc => exact k.receive _ hs h

/-- Every instruction keeps what all the operations keep. -/
theorem KeptByOperations.exec (k : KeptByOperations P) (i : Instr) (hs : P s) (h : exec i s = .next t) : P t := by
  by_cases harm : i = .arm
  · subst harm; cases h; exact k.arm s hs
  · by_cases hreset : i = .reset
    · subst hreset; cases h; exact k.reset s hs
    · exact k.toKeptWithoutRestart.exec i harm hreset hs h

/-- Every step keeps what all the operations keep. -/
theorem KeptByOperations.step (k : KeptByOperations P) (hs : P s) (h : step s = .next t) : P t := by
  rcases step_next s t h with ⟨_, hp⟩ | ⟨_, _, rfl⟩ | ⟨_, rest, i, _, _, _, he⟩ | ⟨_, rest, bytes, _, _, _, hr⟩
  · exact presentHeld_keeps P k.held k.byte s t hs hp
  · exact hs
  · exact k.exec i (k.stream s rest hs) he
  · exact k.toKeptWithoutRestart.receive bytes (k.stream s rest hs) hr

end Sys2Proof.Machine
end

section
/-! SUPPORT. The state invariants under each operation (10_state.md R34, R27). -/

namespace Sys2Proof.Machine

/-- A block in IDLE with everything cleared meets the invariant. -/
theorem idle_inv (s : State) (hst : s.st = .idle) (hbuf : s.buf = []) (hn : s.n = 0) (hatt : s.att = 0)
    (hres : s.res = .none) (hmax : 1 ≤ s.maxAttempts) : s.Inv where
  canonical := by rw [hbuf]; exact wf_nil
  filled := by simp [hbuf, hn]
  idleClear := fun _ => ⟨hres, hatt⟩
  accumOpen := by simp [hst]
  accumIncomplete := by simp [hst]
  doneResult := by simp [hst]
  validated := by simp [hres, Result.byValidation]
  attemptsBounded := by omega
  attemptsExhausted := by omega
  parameterLegal := hmax

/-- A block whose accumulation ended without a frame, by TIMEOUT or IO, meets the invariant. -/
theorem ended_inv (s : State) (bytes : List Byte) (hst : s.st = .done) (hbuf : s.buf = cellsOf bytes)
    (hn : s.n.toNat = bytes.length) (hres : s.res = .timeout ∨ s.res = .io) (hatt : s.att ≤ s.maxAttempts)
    (hlast : s.att = s.maxAttempts → s.res = .timeout) (hmax : 1 ≤ s.maxAttempts) : s.Inv where
  canonical := by rw [hbuf]; exact cellsOf_wf _ (by have := s.n.isLt; omega)
  filled := by rw [hbuf]; exact cellsOf_filled _ _ hn
  idleClear := by simp [hst]
  accumOpen := by simp [hst]
  accumIncomplete := by simp [hst]
  doneResult := by rcases hres with h | h <;> simp [h]
  validated := by rcases hres with h | h <;> simp [h, Result.byValidation]
  attemptsBounded := hatt
  attemptsExhausted := hlast
  parameterLegal := hmax

/-- The invariant speaks neither of `crc` and `viol` nor of the driver's stream and the held bytes. -/
theorem State.Inv.set_unread {s : State} (h : s.Inv) (c : U16) (v : Bool) (xs : List Input) (bs : List Byte) :
    State.Inv { s with crc := c, viol := v, stream := xs, held := bs } :=
  ⟨h.canonical, h.filled, h.idleClear, h.accumOpen, h.accumIncomplete, h.doneResult, h.validated, h.attemptsBounded,
    h.attemptsExhausted, h.parameterLegal⟩

/-- A consumed byte keeps the invariant: discarded, stored in an incomplete frame, or the last of a complete one. -/
theorem State.Inv.of_consumeByte {s t : State} (h : s.Inv) (hst : s.st = .accum) (b : Byte)
    (hb : consumeByte b s = .next t) : t.Inv := by
  obtain ⟨hres, hatt⟩ := h.accumOpen hst
  by_cases hfull : s.n.toNat = 255
  · rw [consumeByte_full b s hfull] at hb
    cases hb
    exact h
  · have hn : s.n.toNat < 255 := by have := s.n.isLt; omega
    obtain ⟨raw, _, hlen, hcells, hnext⟩ := consumeByte_filled b s hn h.filled
    have hbuf : (storeByte b s).buf = cellsOf raw :=
      eq_cellsOf _ raw (memWrite_wf _ _ _ hn h.canonical) (by omega) hcells
    have hcount : (storeByte b s).n.toNat = raw.length := by rw [storeByte_n_toNat b s hn, hlen]
    rw [hnext] at hb
    cases hc : bufferComplete raw with
    | false =>
      rw [hc] at hb
      cases hb
      exact accumulating_inv _ raw hst hbuf hcount hc hres hatt
    | true =>
      rw [hc] at hb
      cases hb
      exact delivered_inv _ raw rfl hbuf hcount hc rfl hatt

/-- Every operation keeps the invariant. -/
theorem inv_kept : KeptByOperations State.Inv where
  crc s c h := h.set_unread c s.viol s.stream s.held
  held s bs h := h.set_unread s.crc s.viol s.stream bs
  stream s xs h := h.set_unread s.crc s.viol xs s.held
  byte _ _ b hst h hb := h.of_consumeByte hst b hb
  attempt s hst hm h := by
    obtain ⟨hres, hatt⟩ := h.accumOpen hst
    obtain ⟨bytes, hbuf, hn, _⟩ := h.exists_bytes
    exact accumulating_inv _ bytes hst hbuf hn (h.not_bufferComplete hst hbuf hn) hres
      (show s.att + 1 < s.maxAttempts by omega)
  timeout s hst hm h := by
    obtain ⟨bytes, hbuf, hn, _⟩ := h.exists_bytes
    exact ended_inv _ bytes rfl hbuf hn (.inl rfl) hm.le (fun _ => rfl) h.parameterLegal
  io s hst h := by
    obtain ⟨hres, hatt⟩ := h.accumOpen hst
    obtain ⟨bytes, hbuf, hn, _⟩ := h.exists_bytes
    exact ended_inv _ bytes rfl hbuf hn (.inr rfl) hatt.le (fun hm => absurd hm hatt.ne) h.parameterLegal
  arm s h := accumulating_inv _ [] rfl rfl rfl rfl rfl h.parameterLegal
  reset s h := idle_inv _ rfl rfl rfl rfl rfl h.parameterLegal

/-- Settles O26: every operation keeps the invariant, so every step does. -/
theorem stepKeepsTheInvariant : Obligations.StepKeepsTheInvariant :=
  fun _ _ hs h => inv_kept.step hs h

/-- A result that is not one of validation's needs no explanation. -/
theorem resultExplained_of_not_byValidation {s : State} (h : s.res.byValidation = false) : s.ResultExplained := by
  intro hv
  rw [h] at hv
  cases hv

/-- While the block accumulates there is no result. -/
theorem State.Inv.not_byValidation_of_accum {s : State} (h : s.Inv) (hst : s.st = .accum) :
    s.res.byValidation = false := by
  rw [(h.accumOpen hst).1]
  rfl

/-- A consumed byte that ends in a validation result is the last of the bytes that validation was given. -/
theorem State.Inv.resultExplained_of_consumeByte {s t : State} (h : s.Inv) (hst : s.st = .accum) (b : Byte)
    (hb : consumeByte b s = .next t) : t.ResultExplained := by
  have hopen := h.not_byValidation_of_accum hst
  rcases consumeByte_next b s t hb with ⟨_, rfl⟩ | ⟨_, _, rfl⟩ | ⟨raw, _, _, hraw, rfl⟩
  · exact resultExplained_of_not_byValidation hopen
  · exact resultExplained_of_not_byValidation hopen
  · exact fun _ => ⟨raw, hraw, rfl⟩

/-- Every operation keeps, of an invariant state, that a validation result is explained. -/
theorem resultExplained_kept : KeptByOperations fun s => s.Inv ∧ s.ResultExplained where
  crc s c h := ⟨inv_kept.crc s c h.1, h.2⟩
  held s bs h := ⟨inv_kept.held s bs h.1, h.2⟩
  stream s xs h := ⟨inv_kept.stream s xs h.1, h.2⟩
  byte _ _ b hst h hb := ⟨h.1.of_consumeByte hst b hb, h.1.resultExplained_of_consumeByte hst b hb⟩
  attempt s hst hm h := ⟨inv_kept.attempt s hst hm h.1,
    resultExplained_of_not_byValidation (h.1.not_byValidation_of_accum hst)⟩
  timeout s hst hm h := ⟨inv_kept.timeout s hst hm h.1, resultExplained_of_not_byValidation rfl⟩
  io s hst h := ⟨inv_kept.io s hst h.1, resultExplained_of_not_byValidation rfl⟩
  arm s h := ⟨inv_kept.arm s h.1, resultExplained_of_not_byValidation rfl⟩
  reset s h := ⟨inv_kept.reset s h.1, resultExplained_of_not_byValidation rfl⟩

/-- Settles O27: the result is written with the bytes it is about, and every later operation either leaves both or
restarts. -/
theorem stepKeepsTheResultExplained : Obligations.StepKeepsTheResultExplained :=
  fun _ _ hinv hres h => (resultExplained_kept.step ⟨hinv, hres⟩ h).2

/-- Settles O25: the reset state is idle and cleared, and MAX_ATTEMPTS is at least 1. -/
theorem resetStateMeetsTheInvariant : Obligations.ResetStateMeetsTheInvariant :=
  ⟨idle_inv _ rfl rfl rfl rfl rfl one_le_maxAttempts, resultExplained_of_not_byValidation rfl⟩

end Sys2Proof.Machine
end

section
/-! SUPPORT. The sticky flag `viol` and the counter `att` (10_state.md R29, R27). -/

namespace Sys2Proof.Machine

/-- Beside ARM and RESET nothing writes `viol`. -/
theorem viol_kept (v : Bool) : KeptWithoutRestart fun s => s.viol = v where
  crc _ _ h := h
  held _ _ h := h
  stream _ _ h := h
  byte s t b _ h hb := by
    rcases consumeByte_next b s t hb with ⟨_, rfl⟩ | ⟨_, _, rfl⟩ | ⟨_, _, _, _, rfl⟩ <;> exact h
  attempt _ _ _ h := h
  timeout _ _ _ h := h
  io _ _ h := h

/-- Settles O34: ARM and RESET write `viol` as their rules say, and `viol_kept` covers the other rows. -/
theorem violationIsStickyUntilReset : Obligations.ViolationIsStickyUntilReset := by
  intro i s t h
  refine ⟨?_, ?_, ?_⟩
  · rintro rfl
    cases h
    rfl
  · rintro rfl hst
    cases h
    simp [hst]
  · intro hreset harm
    by_cases hi : i = .arm
    · subst hi
      cases h
      have hst : s.st ≠ .accum := fun hs => harm ⟨rfl, hs⟩
      simp [hst]
    · exact (viol_kept s.viol).exec i hi hreset rfl h

/-- Settles O36: `att` is at most MAX_ATTEMPTS, and the width is the least whose power of two exceeds that. -/
theorem attemptCounterFitsItsWidth : Obligations.AttemptCounterFitsItsWidth := by
  intro s h
  have hfits : s.att < 2 ^ attWidth s.maxAttempts := by
    have hpow : s.maxAttempts + 1 ≤ 2 ^ attWidth s.maxAttempts := Nat.le_pow_clog (by omega) _
    have := h.attemptsBounded
    omega
  refine ⟨hfits, ?_, fun w hw => Nat.clog_le_of_le_pow hw⟩
  rw [attOut, BitVec.toNat_ofNat, Nat.mod_eq_of_lt hfits]

end Sys2Proof.Machine
end

section
/-! SUPPORT. The status word (10_state.md R33): its fields, and reading them back. -/

namespace Sys2Proof.Machine

variable (s : State)

/-- Each bit of the status word, by the field it lies in. -/
theorem statusWord_getLsbD (i : Nat) : (statusWord s).getLsbD i =
    if i < 2 then s.st.code.getLsbD i
    else if i - 2 < 4 then s.res.code.getLsbD (i - 2)
    else if i - 2 - 4 < 1 then (BitVec.ofBool s.viol).getLsbD (i - 2 - 4)
    else if i - 2 - 4 - 1 < 1 then (0#1).getLsbD (i - 2 - 4 - 1)
    else s.n.getLsbD (i - 2 - 4 - 1 - 1) := by
  simp only [← BitVec.getLsbD_append]
  rfl

theorem statusWord_st : (statusWord s).extractLsb' 0 2 = s.st.code := by
  ext i hi
  simp [statusWord_getLsbD, hi]

theorem statusWord_res : (statusWord s).extractLsb' 2 4 = s.res.code := by
  ext i hi
  rw [BitVec.getElem_extractLsb', statusWord_getLsbD, if_neg (by omega), if_pos (by omega), Nat.add_sub_cancel_left]
  exact BitVec.getLsbD_eq_getElem hi

theorem statusWord_viol : (statusWord s).getLsbD 6 = s.viol := by
  rw [statusWord_getLsbD]
  simp

theorem statusWord_bit7 : (statusWord s).getLsbD 7 = false := by
  rw [statusWord_getLsbD]
  simp

theorem statusWord_n : (statusWord s).extractLsb' 8 8 = s.n := by
  ext i hi
  rw [BitVec.getElem_extractLsb', statusWord_getLsbD, if_neg (by omega), if_neg (by omega), if_neg (by omega),
    if_neg (by omega), show 8 + i - 2 - 4 - 1 - 1 = i by omega]
  exact BitVec.getLsbD_eq_getElem hi

theorem syncStateOfCode_code (st : SyncState) : syncStateOfCode st.code = some st := by
  cases st <;> rfl

theorem resultOfCode_code (r : Result) : resultOfCode r.code = some r := by
  cases r <;> rfl

/-- Reading the status word back gives the fields it was packed from. -/
theorem readStatus_statusWord :
    readStatus (statusWord s) = .ok { st := s.st, res := s.res, viol := s.viol, n := s.n } := by
  rw [readStatus, statusWord_bit7, statusWord_st, statusWord_res, statusWord_viol, statusWord_n, syncStateOfCode_code,
    resultOfCode_code]
  rfl

end Sys2Proof.Machine

namespace Sys2Proof.Machine

/-- Settles O55: the codes of `st` and `res` are R24's and R80's, and each field of the word is the state's. -/
theorem statusWordShowsTheState : Obligations.StatusWordShowsTheState := by
  intro s
  refine ⟨?_, ?_, statusWord_viol s, statusWord_bit7 s, statusWord_n s, readStatus_statusWord s⟩
  · rw [statusWord_st]
    cases s.st <;> rfl
  · rw [statusWord_res]
    cases s.res <;> rfl

end Sys2Proof.Machine
end

section
/-! SUPPORT. The bytes the environment holds (10_state.md R36): which word of a step comes first, and that the others
leave them in order. -/

namespace Sys2Proof

/-- The condition of a control frame's row in the decoder, taken apart. -/
theorem sentinel_parts (p : List Byte) (cmd sentinel : Byte) (h : (p.isEmpty && cmd == sentinel) = true) :
    p = [] ∧ cmd = sentinel := by
  simpa only [Bool.and_eq_true, List.isEmpty_iff, beq_iff_eq] using h

/-- The row a frame is classified as has that frame for its wire bytes. -/
theorem encode_classifyFrame (start addr len cmd : Byte) (p : List Byte) (lo hi : Byte) :
    encode (classifyFrame start addr len cmd p lo hi) = .line (frameBytes start addr len cmd p lo hi) := by
  unfold classifyFrame
  cases hheader : headerMatches start addr with
  | false => rfl
  | true =>
    obtain ⟨rfl, rfl⟩ : start = config.startCode ∧ addr = config.periphAddr := by
      simpa only [headerMatches, Bool.and_eq_true, beq_iff_eq] using hheader
    simp only [Bool.not_true, Bool.false_eq_true, if_false]
    split
    · rfl
    · split
      · next hack =>
        obtain ⟨rfl, rfl⟩ := sentinel_parts p cmd _ hack
        rfl
      · split
        · next hnack =>
          obtain ⟨rfl, rfl⟩ := sentinel_parts p cmd _ hnack
          rfl
        · split
          · next hillegal =>
            obtain ⟨rfl, rfl⟩ := sentinel_parts p cmd _ hillegal
            rfl
          · rfl

/-- The row a burst decodes to has that burst for its wire bytes. -/
theorem encode_of_decodeFrame (bytes : List Byte) (i : Instr) (h : decodeFrame bytes = some i) :
    encode i = .line bytes := by
  unfold decodeFrame at h
  split at h
  · next start addr len cmd rest =>
    split at h
    · cases h
    · next p lo hi hsplit =>
      split at h
      · cases h
        rw [encode_classifyFrame, append_of_splitChecksum rest p lo hi hsplit]
        rfl
      · cases h
  · cases h

/-- A burst is a frame row with those wire bytes, or no row at all. -/
theorem decode_line_cases (bytes : List Byte) :
    (∃ i, decode (.line bytes) = .ok i ∧ encode i = .line bytes) ∨
      decode (.line bytes) = .error (.notOneFrame bytes) := by
  cases h : decodeFrame bytes with
  | some i => exact .inl ⟨i, by rw [decode, h], encode_of_decodeFrame bytes i h⟩
  | none => exact .inr (by rw [decode, h])

end Sys2Proof

namespace Sys2Proof.Machine

/-- A frame row is no word of the environment's. -/
theorem environmentWord_of_line (i : Instr) (bytes : List Byte) (h : encode i = .line bytes) :
    environmentWord i = false := by
  cases i with
  | frameAck | frameNack | frameIllegal | frameData | frameBadHeader | frameBadCrc => rfl
  | _ => cases h

/-- A burst waits for no held byte: its bytes go behind them. -/
theorem waitsForHeld_line (bytes : List Byte) : waitsForHeld (.line bytes) = false := by
  rcases decode_line_cases bytes with ⟨i, hd, he⟩ | hd <;> rw [waitsForHeld, hd]
  exact environmentWord_of_line i bytes he

/-- A burst, frame row or not, arrives in its turn, in every state. -/
theorem step_line (bytes : List Byte) (rest : List Input) (s : State) (hs : s.stream = .line bytes :: rest) :
    step s = receive bytes (setStream rest s) := by
  have hf : heldGoesFirst s = false := Bool.eq_false_iff.2 fun hf => by
    have hw := ((heldGoesFirst_iff s).1 hf).2.2 _ rest hs
    rw [waitsForHeld_line] at hw
    cases hw
  obtain ⟨hok, herr⟩ := step_of_turn s _ rest hs hf
  rcases decode_line_cases bytes with ⟨i, hd, he⟩ | hd
  · rw [hok i hd, exec_line i bytes _ he]
  · exact herr bytes hd

/-- RX_BYTE in ACCUM consumes its byte. -/
theorem exec_rxByte_of_accum (b : Byte) (s : State) (hst : s.st = .accum) :
    exec (.rxByte b) s = consumeByte b s :=
  if_pos hst

/-- Where a held byte goes first, the step is RX_BYTE of it. -/
theorem step_of_heldGoesFirst (b : Byte) (bs : List Byte) (s : State) (hheld : s.held = b :: bs)
    (hf : heldGoesFirst s = true) : step s = exec (.rxByte b) (setHeld bs s) := by
  have hst := ((heldGoesFirst_iff s).1 hf).1
  rw [step, if_pos hf, presentHeld, hheld]
  exact if_pos hst

/-- An instruction that is no frame row leaves the held bytes as they are. -/
theorem exec_held (i : Instr) (s t : State) (hline : ∀ bytes, encode i ≠ .line bytes) (h : exec i s = .next t) :
    t.held = s.held := by
  cases i with
  | nop | crcInit | crcByte | arm | reset => cases h; rfl
  | rxByte b =>
    obtain ⟨_, hc⟩ := execRxByte_next b s t h
    rcases consumeByte_next b s t hc with ⟨_, rfl⟩ | ⟨_, _, rfl⟩ | ⟨_, _, _, _, rfl⟩ <;> rfl
  | attemptEnd =>
    change execAttemptEnd s = .next t at h
    rcases execAttemptEnd_cases s with ⟨_, he⟩ | ⟨_, _, he⟩ | ⟨_, _, he⟩ <;> rw [he] at h <;> cases h <;> rfl
  | rxError =>
    change execRxError s = .next t at h
    rcases execRxError_cases s with ⟨_, he⟩ | ⟨_, he⟩ <;> rw [he] at h <;> cases h <;> rfl
  | reserved111 => cases h
  | frameAck | frameNack | frameIllegal | frameData | frameBadHeader | frameBadCrc => exact absurd rfl (hline _)

/-- Settles O15: a frame row is the arrival of its bytes, and a block that is not ready takes none of them. -/
theorem frameBytesWaitWhileNotReady : Obligations.FrameBytesWaitWhileNotReady := by
  intro i bytes s hi hst
  rw [exec_line i bytes s hi, receive_not_ready bytes s hst]
  rfl

/-- While the block is not ready, an instruction leaves the held bytes in order, its own bytes behind them. -/
theorem exec_held_of_not_accum (i : Instr) (s t : State) (hst : s.st ≠ .accum) (h : exec i s = .next t) :
    t.held = s.held ++ (match encode i with | .line bytes => bytes | .word _ => [] | .rst => []) := by
  cases hi : encode i with
  | line bytes =>
    rw [frameBytesWaitWhileNotReady i bytes s hi hst] at h
    cases h
    rfl
  | word w => rw [exec_held i s t (by simp [hi]) h, List.append_nil]
  | rst => rw [exec_held i s t (by simp [hi]) h, List.append_nil]

/-- The environment's own words wait for the held bytes. -/
theorem waitsForHeld_of_environment (x : Input)
    (h : (∃ c, decode x = .ok (.rxByte c)) ∨ decode x = .ok .attemptEnd ∨ decode x = .ok .rxError) :
    waitsForHeld x = true := by
  rcases h with ⟨c, h⟩ | h | h <;> rw [waitsForHeld, h] <;> rfl

/-- Settles O60: a block that is not ready takes the instruction itself; a ready one consumes the first held byte,
unless a burst arrives, whose bytes then go behind the held ones. -/
theorem heldBytesAreDeliveredWhenReady : Obligations.HeldBytesAreDeliveredWhenReady := by
  constructor
  · intro i x rest s t hs hd hready h
    have hst : s.st ≠ .accum := by simpa [rxReady] using hready
    have hf : heldGoesFirst s = false := Bool.eq_false_iff.2 fun hf => hst ((heldGoesFirst_iff s).1 hf).1
    rw [(step_of_turn s x rest hs hf).1 i hd] at h
    exact exec_held_of_not_accum i (setStream rest s) t hst h
  · intro b bs s hready hheld
    have hst : s.st = .accum := by simpa [rxReady] using hready
    have hsome : s.held ≠ [] := by simp [hheld]
    refine ⟨fun hs => ?_, fun x rest hs hx => ?_, fun bytes rest hs => ?_⟩
    · exact step_of_heldGoesFirst b bs s hheld ((heldGoesFirst_iff s).2 ⟨hst, hsome, by simp [hs]⟩)
    · refine step_of_heldGoesFirst b bs s hheld ((heldGoesFirst_iff s).2 ⟨hst, hsome, fun y ys hy => ?_⟩)
      rw [hs, List.cons.injEq] at hy
      rw [← hy.1]
      exact waitsForHeld_of_environment x hx
    · have hfirst : (setStream rest s).held ++ bytes = b :: (bs ++ bytes) := by simp [hheld]
      rw [step_line bytes rest s hs, receive_ready bytes (setStream rest s) b _ hst hfirst]
      exact (exec_rxByte_of_accum b (setHeld (bs ++ bytes) (setStream rest s)) hst).symm

end Sys2Proof.Machine
end

section
/-! SUPPORT. The buffer under each operation (20_memory.md R50, R51, R52, R56): the one cell a byte writes, what stays
beside it, and what the read port gives. -/

namespace Sys2Proof.Machine

/-- The cells and the count after one consumed byte: as before in a full buffer, else the byte at the old count. -/
theorem consumeByte_buffer (b : Byte) (s t : State) (h : consumeByte b s = .next t) :
    (s.n.toNat = 255 ∧ t.n = s.n ∧ t.buf = s.buf) ∨
      (s.n.toNat < 255 ∧ t.n.toNat = s.n.toNat + 1 ∧ t.buf = memWrite s.buf s.n.toNat b) := by
  rcases consumeByte_next b s t h with ⟨hn, rfl⟩ | ⟨hn, _, rfl⟩ | ⟨raw, hn, _, _, rfl⟩
  · exact .inl ⟨hn, rfl, rfl⟩
  · exact .inr ⟨hn, storeByte_n_toNat b s hn, rfl⟩
  · exact .inr ⟨hn, storeByte_n_toNat b s hn, rfl⟩

/-- One consumed byte raises the count by at most one, and every cell outside the range it rose by reads as before. -/
theorem consumeByte_other_cells (b : Byte) (s t : State) (h : consumeByte b s = .next t) :
    s.n.toNat ≤ t.n.toNat ∧ t.n.toNat ≤ s.n.toNat + 1 ∧
      ∀ a, a < s.n.toNat ∨ t.n.toNat ≤ a → memRead t.buf a = memRead s.buf a := by
  rcases consumeByte_buffer b s t h with ⟨_, hcount, hbuf⟩ | ⟨hn, hcount, hbuf⟩
  · simp [hcount, hbuf]
  · refine ⟨by omega, by omega, fun a ha => ?_⟩
    rw [hbuf, memRead_memWrite _ _ _ _ hn, if_neg (by omega)]

/-- The registers one consumed byte leaves as they were. -/
theorem consumeByte_frame (b : Byte) (s t : State) (h : consumeByte b s = .next t) :
    t.crc = s.crc ∧ t.att = s.att ∧ t.viol = s.viol ∧ t.maxAttempts = s.maxAttempts ∧ t.stream = s.stream ∧
      t.held = s.held := by
  rcases consumeByte_next b s t h with ⟨_, rfl⟩ | ⟨_, _, rfl⟩ | ⟨_, _, _, _, rfl⟩ <;> simp

/-- Bytes that arrive are only held, or the first one waiting is consumed. -/
theorem receive_next (bytes : List Byte) (s t : State) (h : receive bytes s = .next t) :
    (∃ held, t = setHeld held s) ∨ ∃ b bs, consumeByte b (setHeld bs s) = .next t := by
  unfold receive at h
  rcases presentHeld_cases (setHeld (s.held ++ bytes) s) with ⟨_, hp⟩ | ⟨_, hp⟩ | ⟨b, bs, _, _, hp⟩ <;> rw [hp] at h
  · cases h; exact .inl ⟨_, rfl⟩
  · cases h; exact .inl ⟨_, rfl⟩
  · exact .inr ⟨b, bs, h⟩

/-- Every operation keeps the canonical form: a byte is stored below index 255 only. -/
theorem canonical_kept : KeptByOperations fun s => Memory.wf s.buf where
  crc _ _ h := h
  held _ _ h := h
  stream _ _ h := h
  byte s t b _ h hb := by
    rcases consumeByte_buffer b s t hb with ⟨_, _, hbuf⟩ | ⟨hn, _, hbuf⟩ <;> rw [hbuf]
    · exact h
    · exact memWrite_wf s.buf s.n.toNat b hn h
  attempt _ _ _ h := h
  timeout _ _ _ h := h
  io _ _ h := h
  arm _ _ := wf_nil
  reset _ _ := wf_nil

/-- Settles O28: every operation keeps the canonical form, so every step does. -/
theorem stepKeepsTheBufferCanonical : Obligations.StepKeepsTheBufferCanonical :=
  fun _ _ hs h => canonical_kept.step hs h

/-- Settles O9: RX_BYTE is one consumed byte, which writes at the old count or, in a full buffer, nowhere. -/
theorem rxByteLeavesOtherCellsAndRegisters : Obligations.RxByteLeavesOtherCellsAndRegisters := by
  intro b s t h
  obtain ⟨_, hb⟩ := execRxByte_next b s t h
  refine ⟨fun hn => ?_, fun a ha => ?_, consumeByte_frame b s t hb⟩
  · obtain ⟨hfull, _⟩ | ⟨_, _, hbuf⟩ := consumeByte_buffer b s t hb
    · omega
    · rw [hbuf, memRead_memWrite _ _ _ _ hn, if_pos rfl]
  · obtain ⟨_, _, hbuf⟩ | ⟨hn, _, hbuf⟩ := consumeByte_buffer b s t hb
    · rw [hbuf]
    · rw [hbuf, memRead_memWrite _ _ _ _ hn, if_neg (ha hn)]

/-- Settles O17: a frame row is the arrival of its bytes, of which at most one is consumed. -/
theorem frameRowsLeaveTheRestAlone : Obligations.FrameRowsLeaveTheRestAlone := by
  intro i bytes s t hi h
  rw [exec_line i bytes s hi] at h
  obtain ⟨held, rfl⟩ | ⟨b, bs, hb⟩ := receive_next bytes s t h
  · simp
  · obtain ⟨hcrc, hatt, hviol, hmax, hstream, _⟩ := consumeByte_frame b _ t hb
    obtain ⟨hle, hge, hread⟩ := consumeByte_other_cells b _ t hb
    exact ⟨hle, hge, hread, hcrc, hatt, hviol, hmax, hstream⟩

/-- Below `n` a read gives the byte of its cell. -/
theorem State.Inv.memRead_below {s : State} (h : s.Inv) (i : Nat) (hi : i < s.n.toNat) :
    ∃ v, cellAt s.buf i = some v ∧ memRead s.buf i = .ok v := by
  obtain ⟨v, hv⟩ := Option.isSome_iff_exists.1 ((h.filled i).2 hi)
  exact ⟨v, hv, memRead_of_cell s.buf i v (by have := s.n.isLt; omega) hv⟩

/-- From `n` on a read faults. -/
theorem State.Inv.memRead_from {s : State} (h : s.Inv) (i : Nat) (hi : s.n.toNat ≤ i) :
    memRead s.buf i = .error (.unwrittenRead i) := by
  rcases memRead_cases s.buf i with ⟨v, _, hv, _⟩ | ⟨_, hr⟩
  · have := (h.filled i).1 (by simp [hv])
    omega
  · exact hr

/-- Settles O56: the cells with a value are those below `n`, and `len_field` is a read of cell 2. -/
theorem readPortGivesExactlyTheBufferedBytes : Obligations.ReadPortGivesExactlyTheBufferedBytes := by
  intro s h
  refine ⟨fun a => ⟨h.memRead_below a.toNat, h.memRead_from a.toNat⟩, fun hn => ?_, fun hn => ?_⟩
  · rw [lenField, if_pos hn]
    exact h.memRead_below 2 hn
  · rw [lenField, if_neg (by omega)]

end Sys2Proof.Machine
end

section
/-! SUPPORT. The decoder and the encoder undo each other (30_encoding.md R81 to R85, R70): a step word is its two
fields, and a frame row carries the conditions that the classification tested. -/

namespace Sys2Proof

/-- A step word is its operation and its data field (R81). -/
theorem mkWord_fields (w : StepWord) : mkWord (opField w) (dataField w) = w :=
  BitVec.extractLsb'_append_extractLsb' (w := 3)

/-- A step word is its operation with the data field added. -/
theorem mkWord_eq_add (op : BitVec 3) (data : Byte) : mkWord op data = mkWord op 0 + data.setWidth 11 := by
  have value (d : Byte) : (mkWord op d).toNat = op.toNat * 256 + d.toNat := by
    rw [mkWord, BitVec.toNat_append, ← Nat.shiftLeft_add_eq_or_of_lt d.isLt, Nat.shiftLeft_eq]
  have hop := op.isLt
  have hdata := data.isLt
  have hzero : (0 : Byte).toNat = 0 := rfl
  apply BitVec.eq_of_toNat_eq
  rw [BitVec.toNat_add, value, value, BitVec.toNat_setWidth, hzero]
  omega

/-- The mask of bits 10..8 clears the data field (R83). -/
theorem mkWord_and_opMask (op : BitVec 3) (data : Byte) : mkWord op data &&& 0x700#11 = mkWord op 0 := by
  have hmask : 0x700#11 = BitVec.allOnes 3 ++ 0x00#8 := rfl
  rw [hmask, mkWord, BitVec.and_append, BitVec.and_allOnes, BitVec.and_zero]
  rfl

/-- A decoded step word encodes to itself, its data field cleared where the operation ignores it (R83, R87). -/
theorem encode_decodeWord (op : BitVec 3) (data : Byte) :
    encode (decodeWord (mkWord op data)) = .word (mkWord op (if op = 0b010#3 ∨ op = 0b100#3 then data else 0)) := by
  have hop : op = 0 ∨ op = 1 ∨ op = 2 ∨ op = 3 ∨ op = 4 ∨ op = 5 ∨ op = 6 ∨ op = 7 := by
    revert op; decide
  rcases hop with rfl | rfl | rfl | rfl | rfl | rfl | rfl | rfl <;> simp [decodeWord, encode]

theorem decodeWord_wellFormed (w : StepWord) : (decodeWord w).wellFormed = true := by
  unfold decodeWord
  split <;> rfl

/-- A six-byte frame with a sentinel meets its control row's conditions when its length byte and checksum are right. -/
theorem controlOk_of_parts (len cmd lo hi : Byte) (hlen : lengthByteOk len (frameLength []) = true)
    (hcrc : checksumMatches (frameBody config.startCode config.periphAddr len cmd []) lo hi = true) :
    controlOk len cmd lo hi = true := by
  rw [controlOk, hlen, hcrc, Bool.and_self]

/-- A frame with a right length byte meets the conditions of the row it is classified as. -/
theorem classifyFrame_wellFormed (start addr len cmd : Byte) (p : List Byte) (lo hi : Byte)
    (hlen : lengthByteOk len (frameLength p) = true) :
    (classifyFrame start addr len cmd p lo hi).wellFormed = true := by
  unfold classifyFrame
  cases hheader : headerMatches start addr with
  | false => simp [Instr.wellFormed, hlen, hheader]
  | true =>
    obtain ⟨rfl, rfl⟩ : start = config.startCode ∧ addr = config.periphAddr := by
      simpa only [headerMatches, Bool.and_eq_true, beq_iff_eq] using hheader
    cases hcrc : checksumMatches (frameBody config.startCode config.periphAddr len cmd p) lo hi with
    | false => simp [Instr.wellFormed, hlen, hcrc, -config_startCode, -config_periphAddr]
    | true =>
      simp only [Bool.not_true, Bool.false_eq_true, if_false]
      split
      · next hack =>
        obtain ⟨rfl, rfl⟩ := sentinel_parts p cmd _ hack
        exact controlOk_of_parts len _ lo hi hlen hcrc
      · next hack =>
        split
        · next hnack =>
          obtain ⟨rfl, rfl⟩ := sentinel_parts p cmd _ hnack
          exact controlOk_of_parts len _ lo hi hlen hcrc
        · next hnack =>
          split
          · next hillegal =>
            obtain ⟨rfl, rfl⟩ := sentinel_parts p cmd _ hillegal
            exact controlOk_of_parts len _ lo hi hlen hcrc
          · next hillegal =>
            have hcontrol : isControl cmd p = false := by
              simp only [isControl, isSentinel, Bool.and_or_distrib_left, Bool.eq_false_iff.2 hack,
                Bool.eq_false_iff.2 hnack, Bool.eq_false_iff.2 hillegal, Bool.or_self]
            rw [Instr.wellFormed, hlen, hcrc, hcontrol]
            rfl

/-- The row a burst decodes to meets its conditions. -/
theorem wellFormed_of_decodeFrame (bytes : List Byte) (i : Instr) (h : decodeFrame bytes = some i) :
    i.wellFormed = true := by
  unfold decodeFrame at h
  split at h
  · next start addr len cmd rest =>
    split at h
    · cases h
    · next p lo hi _ =>
      split at h
      · next hlen =>
        cases h
        exact classifyFrame_wellFormed start addr len cmd p lo hi hlen
      · cases h
  · cases h

/-- What an input decodes to is well formed. -/
theorem wellFormed_of_decode (x : Input) (i : Instr) (h : decode x = .ok i) : i.wellFormed = true := by
  cases x with
  | word w => cases h; exact decodeWord_wellFormed w
  | rst => cases h; rfl
  | line bytes =>
    cases hf : decodeFrame bytes with
    | none => rw [decode, hf] at h; cases h
    | some j =>
      obtain rfl : j = i := by simpa [decode, hf] using h
      exact wellFormed_of_decodeFrame bytes j hf

/-- Settles O19: the round trip of each row, row by row. -/
theorem decodeInvertsEncode : Obligations.DecodeInvertsEncode := by
  intro i
  cases i with
  | nop => exact Laws.RoundTrip.nop
  | crcInit => exact Laws.RoundTrip.crcInit
  | crcByte b => exact Laws.RoundTrip.crcByte b
  | arm => exact Laws.RoundTrip.arm
  | rxByte b => exact Laws.RoundTrip.rxByte b
  | attemptEnd => exact Laws.RoundTrip.attemptEnd
  | rxError => exact Laws.RoundTrip.rxError
  | reserved111 => exact Laws.RoundTrip.reserved111
  | reset => exact Laws.RoundTrip.reset
  | frameAck len lo hi => exact Laws.RoundTrip.frameAck len lo hi
  | frameNack len lo hi => exact Laws.RoundTrip.frameNack len lo hi
  | frameIllegal len lo hi => exact Laws.RoundTrip.frameIllegal len lo hi
  | frameData len cmd p lo hi => exact Laws.RoundTrip.frameData len cmd p lo hi
  | frameBadHeader start addr len cmd p lo hi => exact Laws.RoundTrip.frameBadHeader start addr len cmd p lo hi
  | frameBadCrc len cmd p lo hi => exact Laws.RoundTrip.frameBadCrc len cmd p lo hi

/-- Settles O20: a step word by its two fields, a burst by the row it is classified as. -/
theorem everyDecodedInputIsItsInstruction : Obligations.EveryDecodedInputIsItsInstruction := by
  intro x i h
  refine ⟨wellFormed_of_decode x i h, ?_, ?_, ?_⟩
  · rintro bytes rfl
    obtain ⟨j, hj, he⟩ | he := decode_line_cases bytes
    · rw [h] at hj
      cases hj
      exact he
    · rw [h] at he
      cases he
  · rintro rfl
    cases h
    rfl
  · rintro w rfl
    cases h
    obtain ⟨op, data, rfl⟩ : ∃ op data, w = mkWord op data := ⟨_, _, (mkWord_fields w).symm⟩
    have hop : (mkWord op data).extractLsb' 8 3 = op := opField_mkWord op data
    rw [hop, encode_decodeWord, mkWord_and_opMask]
    exact ⟨fun hkeep => by rw [if_pos hkeep], fun h2 h4 => by rw [if_neg (not_or.2 ⟨h2, h4⟩)]⟩

/-- Settles O18: the decoder evaluated on each tabulated word and frame. -/
theorem stepWordsDecodeAsTabulated : Obligations.StepWordsDecodeAsTabulated := by
  unfold Obligations.StepWordsDecodeAsTabulated
  decide +kernel

end Sys2Proof

namespace Sys2Proof.Machine

/-- Settles O12: the decoder reads bits 10..8 alone, and the reserved row has no meaning in any state. -/
theorem reservedOpIsRefused : Obligations.ReservedOpIsRefused := by
  refine ⟨fun w hw => ?_, fun _ => rfl⟩
  have hop : opField w = 0b111#3 := hw
  rw [decode, decodeWord, hop]
  rfl

end Sys2Proof.Machine
end

section
/-! SUPPORT. The step that takes an input of the stream (30_encoding.md R90), and the step after an input is placed. -/

namespace Sys2Proof.Machine

/-- The environment's own words. -/
theorem environmentWord_iff (i : Instr) :
    environmentWord i = true ↔ (∃ b, i = .rxByte b) ∨ i = .attemptEnd ∨ i = .rxError := by
  cases i <;> simp [environmentWord]

/-- Ahead of an instruction a held byte goes first where the block is ready and the instruction is a word of the
environment's. -/
theorem heldGoesFirst_of_decode (s : State) (x : Input) (rest : List Input) (i : Instr) (hs : s.stream = x :: rest)
    (hd : decode x = .ok i) :
    heldGoesFirst s = true ↔ s.st = .accum ∧ s.held ≠ [] ∧ environmentWord i = true := by
  have hw : waitsForHeld x = environmentWord i := by rw [waitsForHeld, hd]
  rw [heldGoesFirst_iff, hs, ← hw]
  simp

/-- No held byte goes first where the block is not ready, nothing is held, or the instruction is none of the
environment's own words. -/
theorem heldGoesFirst_eq_false (s : State) (x : Input) (rest : List Input) (i : Instr) (hs : s.stream = x :: rest)
    (hd : decode x = .ok i)
    (h : s.st ≠ .accum ∨ s.held = [] ∨ ((∀ b, i ≠ .rxByte b) ∧ i ≠ .attemptEnd ∧ i ≠ .rxError)) :
    heldGoesFirst s = false := by
  refine Bool.eq_false_iff.2 fun hf => ?_
  obtain ⟨hst, hheld, hw⟩ := (heldGoesFirst_of_decode s x rest i hs hd).1 hf
  rcases h with h | h | ⟨hrx, hend, herror⟩
  · exact h hst
  · exact hheld h
  · rcases (environmentWord_iff i).1 hw with ⟨b, hi⟩ | hi | hi
    · exact hrx b hi
    · exact hend hi
    · exact herror hi

/-- Settles O22: where no held byte goes first, the input has its turn; a burst always has. -/
theorem stepRunsTheDecodedInstruction : Obligations.StepRunsTheDecodedInstruction := by
  intro s x rest hs
  refine ⟨fun i hd h => ?_, fun bytes hd => ?_⟩
  · exact (step_of_turn s x rest hs (heldGoesFirst_eq_false s x rest i hs hd h)).1 i hd
  · have hw : waitsForHeld x = false := by rw [waitsForHeld, hd]
    have hf : heldGoesFirst s = false := Bool.eq_false_iff.2 fun hf => by
      rw [((heldGoesFirst_iff s).1 hf).2.2 x rest hs] at hw
      cases hw
    exact (step_of_turn s x rest hs hf).2 bytes hd

/-- The instruction read from table bits is the one an input decodes to. -/
theorem inputOfTableWord_of_decodeTableWord (nbits w : Nat) (i : Instr) (h : decodeTableWord nbits w = some i) :
    ∃ x, inputOfTableWord nbits w = some x ∧ decode x = .ok i := by
  unfold decodeTableWord at h
  split at h
  · cases h
  · next x hx =>
    split at h
    · next j hd => cases h; exact ⟨x, hx, hd⟩
    · cases h

/-- The step after an input is placed runs its instruction, with nothing held where a held byte would have gone
first. -/
theorem step_withFetchWord (s : State) (nbits w : Nat) (x : Input) (i : Instr)
    (hx : inputOfTableWord nbits w = some x) (hd : decode x = .ok i) :
    step (s.withFetchWord nbits w) =
      exec i (if heldGoesFirst (setStream (x :: s.stream) s) then setHeld [] s else s) := by
  rw [State.withFetchWord, presentTableWord, hx]
  dsimp only
  cases hf : heldGoesFirst (setStream (x :: s.stream) s) with
  | false => exact (step_of_turn _ x s.stream rfl hf).1 i hd
  | true =>
    have hf' : heldGoesFirst (setHeld [] (setStream (x :: s.stream) s)) = false :=
      heldGoesFirst_eq_false _ x s.stream i rfl hd (.inr (.inl rfl))
    exact (step_of_turn _ x s.stream rfl hf').1 i hd

/-- Settles O24: the placed word has its turn in the very next step. -/
theorem fetchWordRunsNext : Obligations.FetchWordRunsNext := by
  intro s nbits w i h
  obtain ⟨x, hx, hd⟩ := inputOfTableWord_of_decodeTableWord nbits w i h
  rw [step_withFetchWord s nbits w x i hx hd]
  refine ⟨fun hturn => ?_, fun hst hword => ?_⟩
  · rw [heldGoesFirst_eq_false (setStream (x :: s.stream) s) x s.stream i rfl hd hturn]
    rfl
  · by_cases hheld : s.held = []
    · have hsame : setHeld [] s = s := by rw [← hheld]; rfl
      change _ = exec i (setHeld [] s)
      rw [hsame, ite_self]
    · have hf := (heldGoesFirst_of_decode (setStream (x :: s.stream) s) x s.stream i rfl hd).2
        ⟨hst, hheld, (environmentWord_iff i).2 hword⟩
      rw [hf]
      rfl

end Sys2Proof.Machine
end

section
/-! SUPPORT. The assembler's text (30_encoding.md R87): numerals and their digits, immediates, comments. -/

namespace Sys2Proof.Machine

/-- A digit character of a number below 16 has that number's value. -/
theorem digitValue_digitChar (d : Nat) (hd : d < 16) : digitValue d.digitChar = some d := by
  revert d; decide

/-- One digit read behind an accumulator. -/
theorem digitsValue_digitChar (base acc d : Nat) (hbase : base ≤ 16) (hd : d < base) :
    digitsValue base acc [d.digitChar] = some (acc * base + d) := by
  simp [digitsValue, digitValue_digitChar d (by omega), hd]

/-- Digits are read from left to right. -/
theorem digitsValue_append (base acc : Nat) (xs ys : List Char) :
    digitsValue base acc (xs ++ ys) = (digitsValue base acc xs).bind fun v => digitsValue base v ys := by
  induction xs generalizing acc with
  | nil => rfl
  | cons c cs ih =>
    rw [List.cons_append, digitsValue, digitsValue]
    cases digitValue c with
    | none => rfl
    | some d =>
      dsimp only
      split
      · exact ih _
      · rfl

/-- The numeral of a number, in a base up to 16, has that number's value. -/
theorem digitsValue_toDigits (base v : Nat) (hone : 1 < base) (hbase : base ≤ 16) :
    digitsValue base 0 (Nat.toDigits base v) = some v := by
  induction v using Nat.strongRecOn with
  | ind v ih =>
    rw [Nat.toDigits_eq_if hone]
    split
    · next hv => simpa using digitsValue_digitChar base 0 v hbase hv
    · next hv =>
      have hdigit : v % base < base := Nat.mod_lt _ (by omega)
      rw [digitsValue_append, ih (v / base) (Nat.div_lt_self (by omega) hone), Option.bind_some,
        digitsValue_digitChar base _ _ hbase hdigit, Nat.div_add_mod']

/-- The value of `k` digits is below the `k`-th power of the base. -/
theorem digitsValue_lt (base acc v : Nat) (cs : List Char) (h : digitsValue base acc cs = some v) :
    v < (acc + 1) * base ^ cs.length := by
  induction cs generalizing acc with
  | nil => cases h; simp
  | cons c cs ih =>
    rw [digitsValue] at h
    split at h
    · next d _ =>
      split at h
      · next hd =>
        have hle : acc * base + d + 1 ≤ (acc + 1) * base := by rw [Nat.add_mul]; omega
        calc v < (acc * base + d + 1) * base ^ cs.length := ih _ h
          _ ≤ (acc + 1) * base * base ^ cs.length := Nat.mul_le_mul_right _ hle
          _ = (acc + 1) * base ^ (c :: cs).length := by rw [List.length_cons, Nat.pow_succ', Nat.mul_assoc]
      · cases h
    · cases h

/-- An immediate in decimal: its value up to 255, an error above (R87). -/
theorem parseImmediate_decimal (cs : List Char) (v : Nat) (hne : cs ≠ []) (h : digitsValue 10 0 cs = some v) :
    parseImmediate cs = if v ≤ 255 then .ok (BitVec.ofNat 8 v) else .error .badImmediate := by
  unfold parseImmediate
  split
  · exact absurd rfl hne
  · cases h
  · rw [h]

/-- An immediate in hexadecimal: the value of one or two digits, an error for any other count (R87). -/
theorem parseImmediate_hex (ds : List Char) (v : Nat) (h : digitsValue 16 0 ds = some v) :
    parseImmediate ('0' :: 'x' :: ds) =
      if ds.length = 1 ∨ ds.length = 2 then .ok (BitVec.ofNat 8 v) else .error .badImmediate := by
  rw [parseImmediate, h]

/-- The hexadecimal numeral of a number has one or two digits exactly up to 255. -/
theorem toDigits_hex_length (v : Nat) :
    (Nat.toDigits 16 v).length = 1 ∨ (Nat.toDigits 16 v).length = 2 ↔ v ≤ 255 := by
  have hpos : 0 < (Nat.toDigits 16 v).length := Nat.length_toDigits_pos
  have hle : (Nat.toDigits 16 v).length ≤ 2 ↔ v < 16 ^ 2 := Nat.length_toDigits_le_iff (by decide) (by decide)
  omega

/-- An accepted immediate has one of the two forms of R87. -/
theorem form_of_parseImmediate (cs : List Char) (b : Byte) (h : parseImmediate cs = .ok b) :
    digitsValue 10 0 cs = some b.toNat ∨
      ∃ ds, cs = '0' :: 'x' :: ds ∧ (ds.length = 1 ∨ ds.length = 2) ∧ digitsValue 16 0 ds = some b.toNat := by
  unfold parseImmediate at h
  split at h
  · cases h
  · next ds =>
    split at h
    · next hlen =>
      split at h
      · next v hv =>
        cases h
        have hlt : v < 256 := by
          have := digitsValue_lt 16 0 v ds hv
          rcases hlen with hlen | hlen <;> rw [hlen] at this <;> omega
        exact .inr ⟨ds, rfl, hlen, by rw [hv, BitVec.toNat_ofNat, Nat.mod_eq_of_lt hlt]⟩
      · cases h
    · cases h
  · split at h
    · next v hv =>
      split at h
      · next hle =>
        cases h
        exact .inl (by rw [hv, BitVec.toNat_ofNat, Nat.mod_eq_of_lt (by omega)])
      · cases h
    · cases h

/-- A line up to its comment. -/
theorem takeWhile_comment (line comment : List Char) :
    (line ++ ';' :: comment).takeWhile (· != ';') = line.takeWhile (· != ';') := by
  induction line with
  | nil => rfl
  | cons c cs ih => rw [List.cons_append, List.takeWhile_cons, List.takeWhile_cons, ih]

/-- A comment means nothing (R87). -/
theorem assembleLine_comment (line comment : List Char) :
    assembleLine (line ++ ';' :: comment) = assembleLine line := by
  rw [assembleLine, takeWhile_comment, assembleLine]

/-- The words of CRC_BYTE (R82). -/
theorem encode_crcByte (b : Byte) : encode (.crcByte b) = .word (0x200#11 + b.setWidth 11) :=
  congrArg Input.word (mkWord_eq_add 0b010#3 b)

/-- The words of RX_BYTE (R82). -/
theorem encode_rxByte (b : Byte) : encode (.rxByte b) = .word (0x400#11 + b.setWidth 11) :=
  congrArg Input.word (mkWord_eq_add 0b100#3 b)

/-- `rx.frame` is the RX_BYTE words of the frame that `encode` gives (R88). -/
theorem asmFrame_of_encodeFrame (cmd : Byte) (payload frame : List Byte) (h : encodeFrame cmd payload = .ok frame) :
    asmFrame (cmd :: payload) = .ok (frame.map fun x => encode (.rxByte x)) := by
  rw [asmFrame, h]

/-- `rx.frame` of a payload too long for `encode` is an error (R168). -/
theorem asmFrame_tooLong (cmd : Byte) (payload : List Byte) (h : 255 < 6 + payload.length) :
    asmFrame (cmd :: payload) = .error .payloadTooLong := by
  have hlong : encodeFrame cmd payload = .error .payloadTooLong := if_pos h
  rw [asmFrame, hlong]

/-- The numerals of a number as immediates: its value up to 255, errors above. -/
theorem parseImmediate_toDigits (v : Nat) :
    (v ≤ 255 → parseImmediate (Nat.toDigits 10 v) = .ok (BitVec.ofNat 8 v) ∧
      parseImmediate ('0' :: 'x' :: Nat.toDigits 16 v) = .ok (BitVec.ofNat 8 v)) ∧
    (v ≤ 15 → parseImmediate ('0' :: 'x' :: '0' :: Nat.toDigits 16 v) = .ok (BitVec.ofNat 8 v)) ∧
    (255 < v → parseImmediate (Nat.toDigits 10 v) = .error .badImmediate ∧
      parseImmediate ('0' :: 'x' :: Nat.toDigits 16 v) = .error .badImmediate) := by
  have hhex : digitsValue 16 0 (Nat.toDigits 16 v) = some v := digitsValue_toDigits 16 v (by decide) (by decide)
  rw [parseImmediate_decimal _ v Nat.toDigits_ne_nil (digitsValue_toDigits 10 v (by decide) (by decide)),
    parseImmediate_hex _ v hhex, if_congr (toDigits_hex_length v) rfl rfl]
  refine ⟨fun hv => ?_, fun hv => ?_, fun hv => ?_⟩
  · rw [if_pos hv]
    exact ⟨rfl, rfl⟩
  · rw [parseImmediate_hex ('0' :: Nat.toDigits 16 v) v hhex, Nat.toDigits_of_lt_base (by omega)]
    rfl
  · rw [if_neg (by omega)]
    exact ⟨rfl, rfl⟩

/-- Settles O59: the operations by their words, the immediates by the value of their digits, the comment by the part of
the line before it, and the program lines by running the assembler. -/
theorem assemblerFollowsTheSyntaxTable : Obligations.AssemblerFollowsTheSyntaxTable := by
  refine ⟨fun b bs => ?_, parseImmediate_toDigits, form_of_parseImmediate, assembleLine_comment, ?_⟩
  · simp only [← encode_crcByte, ← encode_rxByte]
    exact ⟨rfl, rfl, rfl, rfl, rfl, rfl, rfl, rfl, rfl, rfl, rfl, rfl, asmFrame_of_encodeFrame b bs,
      asmFrame_tooLong b bs⟩
  · decide +kernel

end Sys2Proof.Machine
end

section
/-! SUPPORT. The algebra of the checksum (40_crc16.md R100 to R111): one iteration is linear and injective and only
halves a value whose low bit is clear, and the rest follows by iterating it and folding it over bytes. -/

namespace Sys2Proof

/-- R100's iteration on natural numbers. -/
def halveAndMask (x : Nat) : Nat := if x % 2 = 1 then (x / 2) ^^^ 0x8408 else x / 2

theorem lowBit_eq (c : U16) : c.getLsbD 0 = decide (c.toNat % 2 = 1) := Nat.testBit_zero c.toNat

theorem crcShift1_of_even (c : U16) (h : c.getLsbD 0 = false) : crcShift1 c = c >>> 1 :=
  if_neg (Bool.eq_false_iff.1 h)

theorem crcShift1_of_odd (c : U16) (h : c.getLsbD 0 = true) : crcShift1 c = (c >>> 1) ^^^ 0x8408#16 :=
  if_pos h

theorem toNat_crcShift1 (c : U16) : (crcShift1 c).toNat = halveAndMask c.toNat := by
  unfold halveAndMask
  split
  · next hodd =>
    rw [crcShift1_of_odd c (by rw [lowBit_eq, decide_eq_true hodd]), BitVec.toNat_xor, BitVec.toNat_ushiftRight,
      Nat.shiftRight_one]
    rfl
  · next heven =>
    rw [crcShift1_of_even c (by rw [lowBit_eq, decide_eq_false heven]), BitVec.toNat_ushiftRight,
      Nat.shiftRight_one]

theorem toNat_crcShift (k : Nat) (c : U16) : (crcShift k c).toNat = halveAndMask^[k] c.toNat := by
  induction k generalizing c with
  | zero => rfl
  | succ k ih => rw [crcShift_succ, ih, toNat_crcShift1, Function.iterate_succ_apply]

/-- One iteration is linear (R109): low bits add up, and two masks cancel. -/
theorem crcShift1_xor (a b : U16) : crcShift1 (a ^^^ b) = crcShift1 a ^^^ crcShift1 b := by
  have hbit : (a ^^^ b).getLsbD 0 = (a.getLsbD 0 ^^ b.getLsbD 0) := BitVec.getLsbD_xor
  have hshift : (a ^^^ b) >>> 1 = a >>> 1 ^^^ b >>> 1 := BitVec.ushiftRight_xor_distrib a b 1
  cases ha : a.getLsbD 0 <;> cases hb : b.getLsbD 0 <;> rw [ha, hb] at hbit
  · rw [crcShift1_of_even _ hbit, crcShift1_of_even a ha, crcShift1_of_even b hb, hshift]
  · rw [crcShift1_of_odd _ hbit, crcShift1_of_even a ha, crcShift1_of_odd b hb, hshift, BitVec.xor_assoc]
  · rw [crcShift1_of_odd _ hbit, crcShift1_of_odd a ha, crcShift1_of_even b hb, hshift]
    ac_rfl
  · rw [crcShift1_of_even _ hbit, crcShift1_of_odd a ha, crcShift1_of_odd b hb, hshift]
    calc a >>> 1 ^^^ b >>> 1 = a >>> 1 ^^^ b >>> 1 ^^^ (0x8408#16 ^^^ 0x8408#16) := by simp
      _ = a >>> 1 ^^^ 0x8408#16 ^^^ (b >>> 1 ^^^ 0x8408#16) := by ac_rfl

/-- Only 0 goes to 0: the mask sets bit 15, which the shift has cleared. -/
theorem eq_zero_of_crcShift1 (c : U16) (h : crcShift1 c = 0#16) : c = 0#16 := by
  cases hbit : c.getLsbD 0 with
  | true =>
    have htop : ((c >>> 1) ^^^ 0x8408#16).getLsbD 15 = true := by simp
    rw [← crcShift1_of_odd c hbit, h] at htop
    cases htop
  | false =>
    have hhalf : c.toNat / 2 = 0 := by
      rw [← Nat.shiftRight_one, ← BitVec.toNat_ushiftRight, ← crcShift1_of_even c hbit, h]
      rfl
    have heven : ¬ c.toNat % 2 = 1 := of_decide_eq_false (by rw [← lowBit_eq, hbit])
    exact BitVec.eq_of_toNat_eq (show c.toNat = 0 by omega)

theorem crcShift1_injective : Function.Injective crcShift1 := fun a b h =>
  BitVec.xor_eq_zero_iff.1 (eq_zero_of_crcShift1 (a ^^^ b) (by rw [crcShift1_xor, h, BitVec.xor_self]))

theorem crcShift_xor (k : Nat) (a b : U16) : crcShift k (a ^^^ b) = crcShift k a ^^^ crcShift k b := by
  induction k generalizing a b with
  | zero => rfl
  | succ k ih => simp only [crcShift_succ, crcShift1_xor, ih]

theorem crcShift_injective (k : Nat) : Function.Injective (crcShift k) := by
  induction k with
  | zero => exact Function.injective_id
  | succ k ih => exact ih.comp crcShift1_injective

/-- A value whose lowest `k` bits are clear is only shifted. -/
theorem crcShift_of_low_clear (k : Nat) (c : U16) (h : ∀ i < k, c.getLsbD i = false) : crcShift k c = c >>> k := by
  induction k generalizing c with
  | zero => rfl
  | succ k ih =>
    have hlow : ∀ i < k, (c >>> 1).getLsbD i = false := fun i hi => by
      rw [BitVec.getLsbD_ushiftRight]
      exact h (1 + i) (by omega)
    rw [crcShift_succ, crcShift1_of_even c (h 0 (by omega)), ih _ hlow, ← BitVec.shiftRight_add, Nat.add_comm]

theorem crcShift8_xor (a b : U16) : crcShift8 (a ^^^ b) = crcShift8 a ^^^ crcShift8 b := crcShift_xor 8 a b

theorem crcShift8_injective : Function.Injective crcShift8 := crcShift_injective 8

@[simp] theorem crcShift8_zero : crcShift8 0#16 = 0#16 := by decide

theorem crcShift8_eq_zero_iff (c : U16) : crcShift8 c = 0#16 ↔ c = 0#16 :=
  crcShift8_injective.eq_iff' crcShift8_zero

/-- The high byte is only shifted down, so the mask is applied for the low byte alone (R110). -/
theorem crcShift8_eq_high_xor_low (c : U16) : crcShift8 c = (c >>> 8) ^^^ crcShift8 (c &&& 0x00FF#16) := by
  have hmask : ∀ i < 8, (0x00FF#16).getLsbD i = true := by decide
  have hlow : ∀ i < 8, (c ^^^ (c &&& 0x00FF#16)).getLsbD i = false := fun i hi => by
    rw [BitVec.getLsbD_xor, BitVec.getLsbD_and, hmask i hi, Bool.and_true, Bool.xor_self]
  have hhigh : (c ^^^ (c &&& 0x00FF#16)) >>> 8 = c >>> 8 := by
    rw [BitVec.ushiftRight_xor_distrib, BitVec.ushiftRight_and_distrib, show 0x00FF#16 >>> 8 = 0#16 from rfl,
      BitVec.and_zero, BitVec.xor_zero]
  calc crcShift8 c = crcShift8 ((c ^^^ (c &&& 0x00FF#16)) ^^^ (c &&& 0x00FF#16)) := by
        rw [BitVec.xor_assoc, BitVec.xor_self, BitVec.xor_zero]
    _ = (c >>> 8) ^^^ crcShift8 (c &&& 0x00FF#16) := by
        rw [crcShift8_xor, crcShift8, crcShift_of_low_clear 8 _ hlow, hhigh]

theorem zext16_ushiftRight (b : Byte) : zext16 b >>> 8 = 0#16 := by
  revert b
  decide

/-- A byte in the high half comes down to the low half. -/
theorem crcShift8_zext16_shiftLeft (b : Byte) : crcShift8 (zext16 b <<< 8) = zext16 b := by
  have hlow : ∀ i < 8, (zext16 b <<< 8).getLsbD i = false := fun i hi => by simp [hi]
  rw [crcShift8, crcShift_of_low_clear 8 _ hlow]
  revert b
  decide

/-- The two halves of a little-endian pair do not overlap. -/
theorem lePair_eq_xor (lo hi : Byte) : lePair lo hi = zext16 lo ^^^ (zext16 hi <<< 8) := by
  refine BitVec.eq_of_getLsbD_eq fun i hi16 => ?_
  by_cases hi8 : i < 8
  · simp [lePair, hi8]
  · have hlo : (zext16 lo).getLsbD i = false := by
      rw [zext16, BitVec.getLsbD_setWidth, BitVec.getLsbD_of_ge lo i (by omega), Bool.and_false]
    simp [lePair, hlo]

theorem crcUpdate_xor (c d : U16) (a b : Byte) :
    crcUpdate (c ^^^ d) (a ^^^ b) = crcUpdate c a ^^^ crcUpdate d b := by
  have hpair : (c ^^^ d) ^^^ zext16 (a ^^^ b) = (c ^^^ zext16 a) ^^^ (d ^^^ zext16 b) := by
    rw [zext16, BitVec.setWidth_xor]
    unfold zext16
    ac_rfl
  rw [crcUpdate, hpair, crcShift8_xor]
  rfl

/-- Two bytes folded one after the other are their little-endian pair folded at once. -/
theorem crcUpdate_crcUpdate (c : U16) (lo hi : Byte) :
    crcUpdate (crcUpdate c lo) hi = crcShift8 (crcShift8 (c ^^^ lePair lo hi)) := by
  rw [lePair_eq_xor, ← BitVec.xor_assoc, crcShift8_xor (c ^^^ zext16 lo), crcShift8_zext16_shiftLeft]
  rfl

/-- Linearity from any two accumulators, on sequences of equal length (R109). -/
theorem crcFrom_zipWith_xor (c d : U16) (xs ys : List Byte) (h : xs.length = ys.length) :
    crcFrom (c ^^^ d) (List.zipWith (fun x y => x ^^^ y) xs ys) = crcFrom c xs ^^^ crcFrom d ys := by
  induction xs generalizing c d ys with
  | nil =>
    cases ys with
    | nil => rfl
    | cons y ys => cases h
  | cons x xs ih =>
    cases ys with
    | nil => cases h
    | cons y ys =>
      rw [List.zipWith_cons_cons, crcFrom_cons, crcUpdate_xor]
      exact ih _ _ ys (Nat.succ.inj h)

theorem crcFrom_eq_foldl (c : U16) (bytes : List Byte) : crcFrom c bytes = bytes.foldl crcUpdate c := by
  induction bytes generalizing c with
  | nil => rfl
  | cons b bs ih => exact ih _

/-- A zero accumulator stays 0 under zero bytes (R108). -/
theorem crcFrom_replicate_zero (k : Nat) : crcFrom 0#16 (List.replicate k 0x00#8) = 0#16 := by
  induction k with
  | zero => rfl
  | succ k ih =>
    have hzero : crcUpdate 0#16 0x00#8 = 0#16 := crcShift8_zero
    rw [List.replicate_succ, crcFrom_cons, hzero, ih]

/-- Settles O42: the accumulator's value goes through R100's iteration on naturals. -/
theorem crcUpdateIsEightConditionalShifts : Obligations.CrcUpdateIsEightConditionalShifts := by
  refine ⟨toNat_crcShift 8, fun c b => ?_⟩
  have hxor : (c ^^^ zext16 b).toNat = c.toNat ^^^ b.toNat := by
    rw [BitVec.toNat_xor, zext16, BitVec.toNat_setWidth_of_le (by decide)]
  rw [← hxor]
  exact toNat_crcShift 8 (c ^^^ zext16 b)

/-- Settles O43: the loop of R102 is a left fold. -/
theorem crc16FoldsFromZero : Obligations.Crc16FoldsFromZero :=
  ⟨crcFrom_eq_foldl 0x0000#16, rfl⟩

/-- Settles O44: the accumulator's high byte is only shifted down, and a byte has none. -/
theorem crcTableFormAgrees : Obligations.CrcTableFormAgrees := by
  refine ⟨fun c b => ?_, by decide⟩
  have hhigh : (c ^^^ zext16 b) >>> 8 = c >>> 8 := by
    rw [BitVec.ushiftRight_xor_distrib, zext16_ushiftRight, BitVec.xor_zero]
  rw [crcUpdate, crcShift8_eq_high_xor_low, hhigh, zext16]

/-- Settles O45: linearity of one iteration carries over to eight, to a byte and to a sequence, and an injection of a
finite type into itself is a bijection. -/
theorem crcIsLinearAndBijective : Obligations.CrcIsLinearAndBijective :=
  ⟨crcShift8_xor, crcShift8_injective.bijective_of_finite, crcFrom_zipWith_xor 0x0000#16 0x0000#16⟩

/-- Settles O46: zero bytes leave the initial accumulator as it is. -/
theorem leadingZeroBytesAreInvisible : Obligations.LeadingZeroBytesAreInvisible := by
  refine ⟨fun k bytes => ?_, crcFrom_replicate_zero 2⟩
  rw [crc16_eq, crcFrom_append, crcFrom_replicate_zero, crc16_eq]

/-- Settles O47: the two bytes are folded as one pair, and sixteen iterations give 0 of 0 alone. -/
theorem checksumResidueIsZero : Obligations.ChecksumResidueIsZero := by
  intro bytes lo hi
  rw [← Machine.lePair_toNat, BitVec.toNat_inj]
  calc crc16 (bytes ++ [lo, hi]) = 0x0000#16
      ↔ crcUpdate (crcUpdate (crc16 bytes) lo) hi = 0x0000#16 := by rw [crc16_eq, crcFrom_append]; rfl
    _ ↔ crc16 bytes ^^^ lePair lo hi = 0x0000#16 := by
      rw [crcUpdate_crcUpdate, crcShift8_eq_zero_iff, crcShift8_eq_zero_iff]
    _ ↔ lePair lo hi = crc16 bytes := by rw [BitVec.xor_eq_zero_iff, eq_comm]

end Sys2Proof
end

section
/-! SUPPORT. The two units share no state (40_crc16.md R106, 10_state.md R23, R35): what the synchronizer answers does
not depend on `crc`, and so leaves it alone. -/

namespace Sys2Proof.Machine

/-- The same outcome with another value of `crc` in its next state. -/
def overrideCrc (c : U16) : Host.Outcome State Fault Refusal → Host.Outcome State Fault Refusal
  | .next t => .next (setCrc c t)
  | .fault f => .fault f
  | .refused r => .refused r

@[simp] theorem overrideCrc_next (c : U16) (t : State) : overrideCrc c (.next t) = .next (setCrc c t) := rfl

/-- The end of R123's step reads the buffer and the count alone. -/
theorem finishByte_setCrc (c : U16) (s : State) : finishByte (setCrc c s) = overrideCrc c (finishByte s) := by
  have hcomplete : frameComplete (setCrc c s) = frameComplete s := rfl
  have hraw : rawFrame (setCrc c s) = rawFrame s := rfl
  rw [finishByte, finishByte, hcomplete, hraw]
  split
  · rfl
  · rfl
  · split <;> rfl

theorem consumeByte_setCrc (b : Byte) (c : U16) (s : State) :
    consumeByte b (setCrc c s) = overrideCrc c (consumeByte b s) := by
  rw [consumeByte, consumeByte, apply_ite (overrideCrc c), ← finishByte_setCrc]
  rfl

theorem execRxByte_setCrc (b : Byte) (c : U16) (s : State) :
    execRxByte b (setCrc c s) = overrideCrc c (execRxByte b s) := by
  rw [execRxByte, execRxByte, apply_ite (overrideCrc c), ← consumeByte_setCrc]
  rfl

theorem presentHeld_setCrc (c : U16) (s : State) : presentHeld (setCrc c s) = overrideCrc c (presentHeld s) := by
  cases hheld : s.held with
  | nil => rw [presentHeld, setCrc_held, presentHeld, hheld, overrideCrc_next]
  | cons b bs =>
    rw [presentHeld, setCrc_held, presentHeld, hheld]
    dsimp only
    rw [apply_ite (overrideCrc c), ← execRxByte_setCrc]
    rfl

theorem receive_setCrc (bytes : List Byte) (c : U16) (s : State) :
    receive bytes (setCrc c s) = overrideCrc c (receive bytes s) :=
  presentHeld_setCrc c (setHeld (s.held ++ bytes) s)

theorem finishAttempt_setCrc (c : U16) (s : State) : finishAttempt (setCrc c s) = setCrc c (finishAttempt s) := by
  rw [finishAttempt, finishAttempt, apply_ite (setCrc c)]
  rfl

theorem execAttemptEnd_setCrc (c : U16) (s : State) :
    execAttemptEnd (setCrc c s) = overrideCrc c (execAttemptEnd s) := by
  rw [execAttemptEnd, execAttemptEnd, overrideCrc_next, apply_ite (setCrc c), ← finishAttempt_setCrc]
  rfl

theorem execRxError_setCrc (c : U16) (s : State) : execRxError (setCrc c s) = overrideCrc c (execRxError s) := by
  rw [execRxError, execRxError, overrideCrc_next, apply_ite (setCrc c)]
  rfl

/-- No instruction but the generator's two and RESET reads or writes `crc`. -/
theorem exec_setCrc (i : Instr) (c : U16) (s : State) (hinit : i ≠ .crcInit) (hbyte : ∀ b, i ≠ .crcByte b)
    (hreset : i ≠ .reset) : exec i (setCrc c s) = overrideCrc c (exec i s) := by
  cases i with
  | nop | arm | reserved111 => rfl
  | crcInit => exact absurd rfl hinit
  | crcByte b => exact absurd rfl (hbyte b)
  | rxByte b => exact execRxByte_setCrc b c s
  | attemptEnd => exact execAttemptEnd_setCrc c s
  | rxError => exact execRxError_setCrc c s
  | reset => exact absurd rfl hreset
  | frameAck | frameNack | frameIllegal | frameData | frameBadHeader | frameBadCrc => exact receive_setCrc _ c s

/-- An instruction that does not depend on `crc` answers the one it was given. -/
theorem exec_crc (i : Instr) (s t : State) (hinit : i ≠ .crcInit) (hbyte : ∀ b, i ≠ .crcByte b)
    (hreset : i ≠ .reset) (h : exec i s = .next t) : t.crc = s.crc := by
  have hsame : exec i s = overrideCrc s.crc (exec i s) := exec_setCrc i s.crc s hinit hbyte hreset
  rw [h, overrideCrc_next, Host.Outcome.next.injEq] at hsame
  rw [hsame, setCrc_crc]

/-- Settles O31: the generator's operations write `crc` alone, from `crc` and the byte, and `exec_crc` covers the other
rows. -/
theorem unitsShareNoState : Obligations.UnitsShareNoState := by
  refine ⟨?_, exec_crc⟩
  rintro i s t (rfl | ⟨b, rfl⟩) h
  · cases h
    refine ⟨rfl, fun s' t' _ h' => ?_⟩
    cases h'
    rfl
  · cases h
    refine ⟨rfl, fun s' t' hcrc h' => ?_⟩
    cases h'
    exact congrArg (crcUpdate · b) hcrc

/-- Settles O32: each of the three outcomes is that of `exec_setCrc`. -/
theorem synchronizerNeverReadsCrc : Obligations.SynchronizerNeverReadsCrc := by
  intro i c s hinit hbyte hreset
  have hsame : exec i { s with crc := c } = overrideCrc c (exec i s) := exec_setCrc i c s hinit hbyte hreset
  exact ⟨fun t h => by rw [hsame, h]; rfl, fun f h => by rw [hsame, h]; rfl, fun r h => by rw [hsame, h]; rfl⟩

end Sys2Proof.Machine
end

section
/-! SUPPORT. The CRC16 generator on the stream (40_crc16.md R103 to R105): its two words, and the bytes it folds whatever
runs between them. -/

namespace Sys2Proof.Machine

/-- A step word decodes by its operation and data fields alone. -/
theorem decode_word_of_opField (w : StepWord) (op : BitVec 3) (h : opField w = op) :
    decode (.word w) = .ok (decodeWord (mkWord op (dataField w))) := by
  rw [decode, ← h, mkWord_fields]

/-- Settles O4: `exec` writes the one field, and the decoder reads bits 10..8 alone. -/
theorem crcInitClearsTheAccumulatorAlone : Obligations.CrcInitClearsTheAccumulatorAlone := by
  refine ⟨fun _ => rfl, fun w hop => ?_, by decide +kernel⟩
  rw [decode_word_of_opField w _ hop, decodeWord, opField_mkWord]
  rfl

/-- Settles O5: `exec` writes the one field, the corner cases are eight iterations each, and the decoder reads the two
fields of the word. -/
theorem crcByteFoldsOneByte : Obligations.CrcByteFoldsOneByte := by
  refine ⟨fun _ _ => rfl, by decide, by decide, by decide, by decide, by decide, fun w hop => ?_, by decide +kernel⟩
  rw [decode_word_of_opField w _ hop, decodeWord, opField_mkWord, dataField_mkWord]
  rfl

/-- No instruction touches what the driver has still to present. -/
theorem exec_stream (i : Instr) (s t : State) (h : exec i s = .next t) : t.stream = s.stream := by
  have hconsume : ∀ (u v : State) (b : Byte), consumeByte b u = .next v → v.stream = u.stream := fun u v b hb => by
    obtain ⟨_, _, _, _, hstream, _⟩ := consumeByte_frame b u v hb
    exact hstream
  cases i with
  | nop | crcInit | crcByte | arm | reset => cases h; rfl
  | rxByte b =>
    obtain ⟨_, hb⟩ := execRxByte_next b s t h
    exact hconsume s t b hb
  | attemptEnd =>
    change execAttemptEnd s = .next t at h
    rcases execAttemptEnd_cases s with ⟨_, he⟩ | ⟨_, _, he⟩ | ⟨_, _, he⟩ <;> rw [he] at h <;> cases h <;> rfl
  | rxError =>
    change execRxError s = .next t at h
    rcases execRxError_cases s with ⟨_, he⟩ | ⟨_, he⟩ <;> rw [he] at h <;> cases h <;> rfl
  | reserved111 => cases h
  | frameAck | frameNack | frameIllegal | frameData | frameBadHeader | frameBadCrc =>
    exact receive_keeps (fun u => u.stream = s.stream) (fun _ _ hu => hu)
      (fun u v b _ hu hb => (hconsume u v b hb).trans hu) _ s t rfl h

theorem crcOperands_cons_crcByte (x : Input) (xs : List Input) (b : Byte) (h : decode x = .ok (.crcByte b)) :
    crcOperands (x :: xs) = b :: crcOperands xs := by
  rw [crcOperands, h]

theorem crcOperands_cons_other (x : Input) (xs : List Input) (h : ∀ b, decode x ≠ .ok (.crcByte b)) :
    crcOperands (x :: xs) = crcOperands xs := by
  rw [crcOperands]
  split
  · next b hb => exact absurd hb (h b)
  · rfl

/-- The block and its stream on the way to a final accumulator: nothing that is still to come clears `crc`, and the
bytes still to fold lead from the present `crc` to `final`. -/
structure FoldsTo (final : U16) (s : State) : Prop where
  noClear : ∀ x ∈ s.stream, decode x ≠ .ok .crcInit ∧ decode x ≠ .ok .reset
  remaining : crcFrom s.crc (crcOperands s.stream) = final

variable {final : U16} {s t : State}

theorem FoldsTo.of_eq (h : FoldsTo final s) (hcrc : t.crc = s.crc) (hstream : t.stream = s.stream) :
    FoldsTo final t :=
  ⟨by rw [hstream]; exact h.noClear, by rw [hcrc, hstream]; exact h.remaining⟩

theorem FoldsTo.setHeld (h : FoldsTo final s) (bs : List Byte) : FoldsTo final (setHeld bs s) :=
  h.of_eq rfl rfl

theorem FoldsTo.consumeByte (h : FoldsTo final s) (b : Byte) (hb : consumeByte b s = .next t) : FoldsTo final t := by
  obtain ⟨hcrc, _, _, _, hstream, _⟩ := consumeByte_frame b s t hb
  exact h.of_eq hcrc hstream

/-- An input that folds no byte leaves the stream without effect on the final accumulator. -/
theorem FoldsTo.tail (h : FoldsTo final s) {x : Input} {rest : List Input} (hs : s.stream = x :: rest)
    (hx : ∀ b, decode x ≠ .ok (.crcByte b)) : FoldsTo final (setStream rest s) where
  noClear y hy := h.noClear y (by rw [hs]; exact List.mem_cons_of_mem x hy)
  remaining := by
    have hrem := h.remaining
    rwa [hs, crcOperands_cons_other x rest hx] at hrem

/-- The instruction of the next input folds its byte, or leaves `crc` alone. -/
theorem FoldsTo.exec (h : FoldsTo final s) {x : Input} {rest : List Input} {i : Instr} (hs : s.stream = x :: rest)
    (hd : decode x = .ok i) (he : exec i (setStream rest s) = .next t) : FoldsTo final t := by
  obtain ⟨hinit, hreset⟩ := h.noClear x (by rw [hs]; exact List.mem_cons_self)
  by_cases hbyte : ∃ b, i = .crcByte b
  · obtain ⟨b, rfl⟩ := hbyte
    cases he
    refine ⟨fun y hy => h.noClear y (by rw [hs]; exact List.mem_cons_of_mem x hy), ?_⟩
    have hrem := h.remaining
    rwa [hs, crcOperands_cons_crcByte x rest b hd] at hrem
  · have hother : ∀ b, i ≠ .crcByte b := fun b hb => hbyte ⟨b, hb⟩
    have hcrc := exec_crc i _ t (fun hi => hinit (by rw [hd, hi])) hother (fun hi => hreset (by rw [hd, hi])) he
    have hrest := h.tail hs fun b hb => hother b (Except.ok.inj (hd.symm.trans hb))
    exact hrest.of_eq hcrc (exec_stream i _ t he)

/-- Whatever word a step runs, the final accumulator stays the same. -/
theorem FoldsTo.step (h : FoldsTo final s) (ht : step s = .next t) : FoldsTo final t := by
  have hheld : ∀ u bs, FoldsTo final u → FoldsTo final (Machine.setHeld bs u) := fun _ bs hu => hu.setHeld bs
  have hbyte : ∀ u v b, u.st = .accum → FoldsTo final u → Machine.consumeByte b u = .next v → FoldsTo final v :=
    fun _ _ b _ hu hb => hu.consumeByte b hb
  rcases step_next s t ht with ⟨_, hp⟩ | ⟨_, _, rfl⟩ | ⟨x, rest, i, _, hs, hd, he⟩ | ⟨x, rest, bytes, _, hs, hd, hr⟩
  · exact presentHeld_keeps _ hheld hbyte s t h hp
  · exact h
  · exact h.exec hs hd he
  · exact receive_keeps _ hheld hbyte bytes _ t (h.tail hs fun b hb => by rw [hd] at hb; cases hb) hr

/-- Settles O48: CRC_INIT has its turn in the first step, and from there every step keeps where the fold will end. -/
theorem generatorComputesCrc16UnderInterleaving : Obligations.GeneratorComputesCrc16UnderInterleaving := by
  intro k xs s t hs hxs hrun hend _
  cases k with
  | zero =>
    cases hrun
    rw [hs] at hend
    cases hend
  | succ k =>
    obtain ⟨u, hu, hrest⟩ := run_next k s t hrun
    have hd : decode (encode .crcInit) = .ok .crcInit := Laws.RoundTrip.crcInit rfl
    have hf : heldGoesFirst s = false := heldGoesFirst_eq_false s _ xs _ hs hd (.inr (.inr (by simp)))
    rw [(step_of_turn s _ xs hs hf).1 _ hd] at hu
    cases hu
    have hstart : FoldsTo (crc16 (crcOperands xs)) (setCrc config.crcInit (setStream xs s)) := ⟨hxs, rfl⟩
    have hfinal := (run_keeps _ (fun _ _ hv hstep => hv.step hstep) k _ t hstart hrest).remaining
    rwa [hend] at hfinal

end Sys2Proof.Machine
end

section
/-! SUPPORT. The host's and the environment's words of the synchronizer (41_reassembler.md R121 to R126): what each
answers in every state, and the words that stand for them. -/

namespace Sys2Proof.Machine

/-- A step word whose operation ignores the data field decodes as the word with 0 there (R83). -/
theorem decode_word_of_ignored_data (w : StepWord) (op : BitVec 3) (hop : opField w = op) (hcrc : op ≠ 0b010#3)
    (hrx : op ≠ 0b100#3) : decode (.word w) = .ok (decodeWord (mkWord op 0)) := by
  have hcases : ∀ op : BitVec 3, op ≠ 0b010#3 → op ≠ 0b100#3 →
      op = 0 ∨ op = 1 ∨ op = 3 ∨ op = 5 ∨ op = 6 ∨ op = 7 := by decide
  rw [decode_word_of_opField w op hop, decodeWord, decodeWord, opField_mkWord, opField_mkWord]
  rcases hcases op hcrc hrx with rfl | rfl | rfl | rfl | rfl | rfl <;> rfl

/-- Settles O3: NOP answers its state, and the decoder reads bits 10..8 alone. -/
theorem nopChangesNoState : Obligations.NopChangesNoState :=
  ⟨fun _ => rfl, fun w hop => decode_word_of_ignored_data w _ hop (by decide) (by decide), by decide +kernel⟩

/-- A buffer with no written cell faults at every read. -/
theorem memRead_nil (i : Nat) : memRead [] i = .error (.unwrittenRead i) := by
  rcases memRead_cases [] i with ⟨v, _, hv, _⟩ | ⟨_, hr⟩
  · cases hv
  · exact hr

/-- The flag after a possible violation (R29), as R122 writes it. -/
theorem viol_or_accum (s : State) : (s.viol || s.st == .accum) = if s.st = .accum then true else s.viol := by
  by_cases hst : s.st = .accum <;> simp [hst]

/-- Settles O6: ARM is the restart with its violation recorded, and the emptied buffer has no cell to read. -/
theorem armRestartsTheAccumulation : Obligations.ArmRestartsTheAccumulation := by
  refine ⟨fun s => ⟨_, rfl, ?_, rfl, rfl, fun a => memRead_nil a.toNat⟩,
    fun w hop => decode_word_of_ignored_data w _ hop (by decide) (by decide), by decide +kernel⟩
  rw [← viol_or_accum]
  rfl

/-- Settles O8: RX_BYTE tests `st` before everything else. -/
theorem rxByteOutsideAccumIsStuck : Obligations.RxByteOutsideAccumIsStuck :=
  fun _ _ hst => if_neg hst

theorem exec_attemptEnd_last (s : State) (hst : s.st = .accum) (hm : s.att + 1 = s.maxAttempts) :
    exec .attemptEnd s = .next (enterResult .timeout (countAttempt s)) := by
  rcases execAttemptEnd_cases s with ⟨h, _⟩ | ⟨_, h, _⟩ | ⟨_, _, he⟩
  · exact absurd hst h
  · exact absurd hm h
  · exact he

theorem exec_attemptEnd_counted (s : State) (hst : s.st = .accum) (hm : s.att + 1 ≠ s.maxAttempts) :
    exec .attemptEnd s = .next (countAttempt s) := by
  rcases execAttemptEnd_cases s with ⟨h, _⟩ | ⟨_, _, he⟩ | ⟨_, h, _⟩
  · exact absurd hst h
  · exact he
  · exact absurd h hm

theorem exec_attemptEnd_ignored (s : State) (hst : s.st ≠ .accum) : exec .attemptEnd s = .next s := by
  rcases execAttemptEnd_cases s with ⟨_, he⟩ | ⟨h, _, _⟩ | ⟨h, _, _⟩
  · exact he
  · exact absurd h hst
  · exact absurd h hst

/-- Settles O10: the three cases of ATTEMPT_END, and the decoder reads bits 10..8 alone. -/
theorem attemptEndCountsAndTimesOut : Obligations.AttemptEndCountsAndTimesOut :=
  ⟨fun s => ⟨exec_attemptEnd_last s, exec_attemptEnd_counted s, exec_attemptEnd_ignored s⟩,
    fun w hop => decode_word_of_ignored_data w _ hop (by decide) (by decide), by decide +kernel⟩

theorem exec_rxError_of_accum (s : State) (hst : s.st = .accum) : exec .rxError s = .next (enterResult .io s) :=
  congrArg Host.Outcome.next (if_pos hst)

theorem exec_rxError_ignored (s : State) (hst : s.st ≠ .accum) : exec .rxError s = .next s :=
  congrArg Host.Outcome.next (if_neg hst)

/-- Settles O11: the two cases of RX_ERROR, and the decoder reads bits 10..8 alone. -/
theorem rxErrorAbortsTheAccumulation : Obligations.RxErrorAbortsTheAccumulation :=
  ⟨fun s => ⟨exec_rxError_of_accum s, exec_rxError_ignored s⟩,
    fun w hop => decode_word_of_ignored_data w _ hop (by decide) (by decide), by decide +kernel⟩

end Sys2Proof.Machine
end

section
/-! SUPPORT. RX_BYTE on a buffer seen as a sequence of bytes (41_reassembler.md R123, R127 to R132): the byte goes
behind those buffered, and the completion predicate decides on the sequence. -/

namespace Sys2Proof.Machine

/-- A write at the count puts the byte behind those buffered (20_memory.md R51). -/
theorem memWrite_cellsOf (bytes : List Byte) (b : Byte) (hlen : bytes.length < 255) :
    memWrite (cellsOf bytes) bytes.length b = cellsOf (bytes ++ [b]) := by
  refine eq_cellsOf _ _ (memWrite_wf _ _ b hlen (cellsOf_wf bytes hlen.le)) (by simpa using hlen) fun i => ?_
  rw [cellAt_memWrite, cellAt_cellsOf]
  split
  · next hi => rw [hi, List.getElem?_concat_length]
  · next hi =>
    by_cases hlt : i < bytes.length
    · rw [List.getElem?_append_left hlt]
    · rw [List.getElem?_eq_none (by omega), List.getElem?_eq_none (by simp; omega)]

/-- The stored byte is buffered behind the others. -/
theorem storeByte_buf_cellsOf (b : Byte) (s : State) (bytes : List Byte) (hbuf : s.buf = cellsOf bytes)
    (hn : s.n.toNat = bytes.length) (hlen : bytes.length < 255) : (storeByte b s).buf = cellsOf (bytes ++ [b]) := by
  rw [storeByte_buf, hbuf, hn, memWrite_cellsOf bytes b hlen]

/-- The exact next state of one consumed byte, of a block that buffers the bytes given (R123). -/
theorem consumeByte_cellsOf (b : Byte) (s : State) (bytes : List Byte) (hbuf : s.buf = cellsOf bytes)
    (hn : s.n.toNat = bytes.length) (hlen : bytes.length < 255) :
    consumeByte b s = .next (if bufferComplete (bytes ++ [b])
      then enterResult (validate (bytes ++ [b])) (storeByte b s) else storeByte b s) := by
  obtain ⟨raw, _, _, hcells, hnext⟩ := consumeByte_filled b s (by omega)
    (by rw [hbuf]; exact cellsOf_filled bytes s.n hn)
  have hraw : raw = bytes ++ [b] := List.ext_getElem? fun i => by
    rw [← hcells, ← storeByte_buf, storeByte_buf_cellsOf b s bytes hbuf hn hlen, cellAt_cellsOf]
  rw [hnext, hraw]

/-- The completion predicate (R120) on a buffer of the block, whose count is a byte. -/
theorem bufferComplete_iff_of_length_le (buffer : List Byte) (hlen : buffer.length ≤ 255) :
    bufferComplete buffer = true ↔
      6 ≤ buffer.length ∧ (buffer[2]? = some 0x00#8 ∨ buffer[2]? = some (BitVec.ofNat 8 buffer.length)) := by
  have hcount (len : Byte) : len.toNat = buffer.length ↔ len = BitVec.ofNat 8 buffer.length := by
    rw [← BitVec.toNat_inj, BitVec.toNat_ofNat, Nat.mod_eq_of_lt (by omega)]
  simp only [bufferComplete_iff, hcount]
  constructor
  · rintro ⟨h6, len, h2, rfl | rfl⟩
    · exact ⟨h6, .inl h2⟩
    · exact ⟨h6, .inr h2⟩
  · rintro ⟨h6, h2 | h2⟩
    · exact ⟨h6, _, h2, .inl rfl⟩
    · exact ⟨h6, _, h2, .inr rfl⟩

/-- Settles O7: the buffered bytes with the new one behind them are the frame that the completion predicate and
validation see. -/
theorem rxByteStoresAndCompletes : Obligations.RxByteStoresAndCompletes := by
  refine ⟨fun b s hinv hst => ⟨fun hn => ?_, fun hn => ?_⟩, fun w hop => ?_, by decide +kernel⟩
  · obtain ⟨bytes, hbuf, hcount, _⟩ := hinv.exists_bytes
    have hlen : bytes.length < 255 := by omega
    have hwrite : memWrite s.buf s.n.toNat b = cellsOf (bytes ++ [b]) :=
      storeByte_buf_cellsOf b s bytes hbuf hcount hlen
    have hnext := consumeByte_cellsOf b s bytes hbuf hcount hlen
    refine ⟨bytes ++ [b], by simp [hcount], by simp, fun i hi => ?_, fun i => ?_, fun hc => ?_, fun hc => ?_⟩
    · rw [hbuf, cellAt_cellsOf, List.getElem?_append_left (by omega)]
    · rw [hwrite, cellAt_cellsOf]
    · rw [exec_rxByte_of_accum b s hst, hnext, if_pos ((bufferComplete_iff_of_length_le _ (by simpa)).2 hc)]
      rfl
    · rw [exec_rxByte_of_accum b s hst, hnext, if_neg fun h => hc ((bufferComplete_iff_of_length_le _ (by simpa)).1 h)]
      rfl
  · rw [exec_rxByte_of_accum b s hst, consumeByte_full b s hn]
  · rw [decode_word_of_opField w _ hop, decodeWord, opField_mkWord, dataField_mkWord]
    rfl

/-- In ACCUM the bytes buffered do not complete, whatever their length byte. -/
theorem State.Inv.incomplete {s : State} (h : s.Inv) (hst : s.st = .accum) {len : Byte}
    (hlen : cellAt s.buf 2 = some len) : ¬ (6 ≤ s.n.toNat ∧ (len = 0x00#8 ∨ len.toNat = s.n.toNat)) := by
  rw [← complete_iff, h.accumIncomplete hst len hlen]
  decide

/-- Settles O41: a full buffer discards the byte, and a length byte of 0 or 255 would have completed it. -/
theorem fullBufferDiscardsAndNeverCompletes : Obligations.FullBufferDiscardsAndNeverCompletes := by
  intro b s hinv hst hn
  obtain ⟨len, hlen, _⟩ := hinv.memRead_below 2 (by omega)
  have hopen := hinv.incomplete hst hlen
  refine ⟨?_, len, hlen, fun hzero => hopen ⟨by omega, .inl hzero⟩, fun hmax => hopen ⟨by omega, .inr ?_⟩⟩
  · rw [exec_rxByte_of_accum b s hst, consumeByte_full b s hn]
  · rw [hmax, hn]
    rfl

/-- A consumed byte leaves the cells below the count as they were. -/
theorem consumeByte_cell_below (b : Byte) (s t : State) (h : consumeByte b s = .next t) (i : Nat)
    (hi : i < s.n.toNat) : cellAt t.buf i = cellAt s.buf i := by
  rcases consumeByte_buffer b s t h with ⟨_, _, hbuf⟩ | ⟨_, _, hbuf⟩ <;> rw [hbuf]
  exact cellAt_memWrite_other _ _ _ _ hi.ne

/-- A consumed byte leads to DONE exactly where the bytes then buffered are complete (R120). -/
theorem State.Inv.done_iff_of_consumeByte {s t : State} (h : s.Inv) (hst : s.st = .accum) (b len : Byte)
    (hb : consumeByte b s = .next t) (hlen : cellAt t.buf 2 = some len) :
    t.st = .done ↔ 6 ≤ t.n.toNat ∧ (len = 0x00#8 ∨ len.toNat = t.n.toNat) := by
  by_cases hfull : s.n.toNat = 255
  · rw [consumeByte_full b s hfull] at hb
    cases hb
    exact iff_of_false (by simp [hst]) (h.incomplete hst hlen)
  · have hn : s.n.toNat < 255 := by have := s.n.isLt; omega
    obtain ⟨bytes, hbuf, hcount, _⟩ := h.exists_bytes
    have hstored := storeByte_buf_cellsOf b s bytes hbuf hcount (by omega)
    have hlength : (storeByte b s).n.toNat = (bytes ++ [b]).length := by
      rw [storeByte_n_toNat b s hn, hcount, List.length_append, List.length_singleton]
    rw [consumeByte_cellsOf b s bytes hbuf hcount (by omega), Host.Outcome.next.injEq] at hb
    subst hb
    have hcomplete : bufferComplete (bytes ++ [b]) = true ↔
        6 ≤ (storeByte b s).n.toNat ∧ (len = 0x00#8 ∨ len.toNat = (storeByte b s).n.toNat) := by
      have h2 : (bytes ++ [b])[2]? = some len := by
        rw [← cellAt_cellsOf, ← hstored, ← hlen]
        split <;> rfl
      rw [bufferComplete_iff, hlength]
      simp only [h2, Option.some.injEq, exists_eq_left']
    split
    · next hc => exact iff_of_true rfl (hcomplete.1 hc)
    · next hc => exact iff_of_false (by simp [hst]) fun hk => hc (hcomplete.2 hk)

/-- Settles O40: the completion predicate decides on the bytes then buffered, and a length byte 0 cannot have waited
past the sixth byte. -/
theorem frameCompletesAtItsLength : Obligations.FrameCompletesAtItsLength := by
  intro b len s t hinv hst h hlen
  have hb : consumeByte b s = .next t := (execRxByte_next b s t h).2
  rw [hinv.done_iff_of_consumeByte hst b len hb hlen]
  constructor
  · rintro rfl
    have hn : s.n.toNat < 6 := by
      by_contra hn
      have h2 : cellAt s.buf 2 = some 0x00#8 := by rw [← consumeByte_cell_below b s t hb 2 (by omega), hlen]
      exact hinv.incomplete hst h2 ⟨by omega, .inl rfl⟩
    obtain ⟨_, hle, _⟩ := consumeByte_other_cells b s t hb
    have hsix : t.n = 6 ↔ t.n.toNat = 6 := BitVec.toNat_inj.symm
    rw [hsix, and_iff_left (.inl rfl)]
    omega
  · intro h6
    have hzero : len ≠ 0x00#8 := by rintro rfl; exact absurd h6 (by decide)
    have hcount : t.n = len ↔ t.n.toNat = len.toNat := BitVec.toNat_inj.symm
    rw [hcount, or_iff_right hzero]
    omega

/-- A block that accumulates a frame whose length byte is one of 1 to 5. -/
structure ShortLength (len : Byte) (s : State) : Prop where
  inv : s.Inv
  st : s.st = .accum
  lengthByte : cellAt s.buf 2 = some len
  short : 1 ≤ len.toNat ∧ len.toNat ≤ 5

theorem ShortLength.consumeByte {len : Byte} {s t : State} (h : ShortLength len s) (b : Byte)
    (hb : consumeByte b s = .next t) : ShortLength len t := by
  have hkept : cellAt t.buf 2 = some len := by
    rw [consumeByte_cell_below b s t hb 2 ((h.inv.filled 2).1 (by simp [h.lengthByte])), h.lengthByte]
  refine ⟨h.inv.of_consumeByte h.st b hb, ?_, hkept, h.short⟩
  have hnot : t.st ≠ .done := by
    rw [ne_eq, h.inv.done_iff_of_consumeByte h.st b len hb hkept]
    rintro ⟨h6, rfl | hlen⟩
    · exact absurd h.short.1 (by decide)
    · have := h.short.2
      omega
  rcases consumeByte_next b s t hb with ⟨_, rfl⟩ | ⟨_, _, rfl⟩ | ⟨_, _, _, _, rfl⟩
  · exact h.st
  · exact h.st
  · exact absurd rfl hnot

theorem ShortLength.setHeld {len : Byte} {s : State} (h : ShortLength len s) (bs : List Byte) :
    ShortLength len (setHeld bs s) :=
  ⟨inv_kept.held s bs h.inv, h.st, h.lengthByte, h.short⟩

/-- Only the end of an attempt, a read error, ARM and RESET end such an accumulation. -/
theorem ShortLength.exec {len : Byte} {s t : State} (h : ShortLength len s) (i : Instr) (hend : i ≠ .attemptEnd)
    (herror : i ≠ .rxError) (harm : i ≠ .arm) (hreset : i ≠ .reset) (he : exec i s = .next t) : ShortLength len t := by
  cases i with
  | nop => cases he; exact h
  | crcInit | crcByte => cases he; exact ⟨inv_kept.crc s _ h.inv, h.st, h.lengthByte, h.short⟩
  | rxByte b => exact h.consumeByte b (execRxByte_next b s t he).2
  | arm => exact absurd rfl harm
  | attemptEnd => exact absurd rfl hend
  | rxError => exact absurd rfl herror
  | reserved111 => cases he
  | reset => exact absurd rfl hreset
  | frameAck | frameNack | frameIllegal | frameData | frameBadHeader | frameBadCrc =>
    exact receive_keeps (ShortLength len) (fun _ bs hu => hu.setHeld bs) (fun _ _ b _ hu hb => hu.consumeByte b hb) _
      s t h he

/-- Settles O39: a byte neither changes the length byte nor completes the frame, and the two ending words enter their
own results. -/
theorem shortLengthByteNeverCompletes : Obligations.ShortLengthByteNeverCompletes := by
  intro i len s t hinv hst hlen h1 h5 he
  refine ⟨fun hend herror harm hreset => ?_, ?_, ?_⟩
  · have ht := ShortLength.exec ⟨hinv, hst, hlen, h1, h5⟩ i hend herror harm hreset he
    exact ⟨ht.st, ht.lengthByte⟩
  · rintro rfl hdone
    by_cases hm : s.att + 1 = s.maxAttempts
    · rw [exec_attemptEnd_last s hst hm] at he
      cases he
      rfl
    · rw [exec_attemptEnd_counted s hst hm] at he
      cases he
      exact absurd (hst.symm.trans hdone) (by decide)
  · rintro rfl _
    rw [exec_rxError_of_accum s hst] at he
    cases he
    rfl

end Sys2Proof.Machine
end

section
/-! SUPPORT. Line bytes are a frame row exactly when they complete at their last byte and not before (30_encoding.md
R70 to R72, 41_reassembler.md R120, R127, R129). -/

namespace Sys2Proof

/-- Six bytes or more are a frame's four header bytes, a payload and two checksum bytes. -/
theorem exists_frameBytes (bytes : List Byte) (h : 6 ≤ bytes.length) :
    ∃ start addr len cmd p lo hi, bytes = frameBytes start addr len cmd p lo hi := by
  match bytes, h with
  | start :: addr :: len :: cmd :: rest, h =>
    have hrest : rest.take (rest.length - 2) ++ rest.drop (rest.length - 2) = rest := List.take_append_drop ..
    obtain ⟨lo, hi, hlast⟩ := List.length_eq_two.1
      (show (rest.drop (rest.length - 2)).length = 2 by simp at h; simp; omega)
    rw [hlast] at hrest
    exact ⟨start, addr, len, cmd, _, lo, hi, by rw [frameBytes, frameBody, List.cons_append, List.cons_append,
      List.cons_append, List.cons_append, hrest]⟩

theorem length_frameBytes (start addr len cmd : Byte) (p : List Byte) (lo hi : Byte) :
    (frameBytes start addr len cmd p lo hi).length = frameLength p := by
  simp [frameBytes, frameBody, frameLength]
  omega

/-- A frame row has at least its header and its checksum. -/
theorem length_of_encode (i : Instr) (bytes : List Byte) (h : encode i = .line bytes) : 6 ≤ bytes.length := by
  cases i with
  | frameAck | frameNack | frameIllegal | frameData | frameBadHeader | frameBadCrc =>
    cases h
    rw [length_frameBytes, frameLength, config_headerLen, config_crcLen]
    omega
  | _ => cases h

/-- A burst decodes to a row exactly when it has a frame's bytes and a right length byte. -/
theorem decode_line_iff (bytes : List Byte) :
    (∃ i, decode (.line bytes) = .ok i) ↔
      6 ≤ bytes.length ∧ ∃ len, bytes[2]? = some len ∧ lengthByteOk len bytes.length = true := by
  have hframe (h6 : 6 ≤ bytes.length) : (∃ i, decode (.line bytes) = .ok i) ↔
      ∃ len, bytes[2]? = some len ∧ lengthByteOk len bytes.length = true := by
    obtain ⟨start, addr, len, cmd, p, lo, hi, rfl⟩ := exists_frameBytes bytes h6
    have hthird : (frameBytes start addr len cmd p lo hi)[2]? = some len := rfl
    simp only [hthird, Option.some.injEq, exists_eq_left', length_frameBytes]
    rw [decode, decodeFrame_frameBytes]
    cases lengthByteOk len (frameLength p) <;> simp
  constructor
  · rintro ⟨i, hd⟩
    have h6 : 6 ≤ bytes.length := by
      rcases decode_line_cases bytes with ⟨j, _, he⟩ | herr
      · exact length_of_encode j bytes he
      · rw [hd] at herr
        cases herr
    exact ⟨h6, (hframe h6).1 ⟨i, hd⟩⟩
  · rintro ⟨h6, hlength⟩
    exact (hframe h6).2 hlength

end Sys2Proof

namespace Sys2Proof.Machine

/-- The completion predicate on the first bytes of a burst. -/
theorem bufferComplete_take (bytes : List Byte) (len : Byte) (hlen : bytes[2]? = some len) (k : Nat)
    (hk : k ≤ bytes.length) :
    bufferComplete (bytes.take k) = true ↔ 6 ≤ k ∧ (len = 0x00#8 ∨ len.toNat = k) := by
  rw [bufferComplete_iff, List.length_take_of_le hk]
  refine and_congr_right fun h6 => ?_
  simp only [List.getElem?_take_of_lt (show 2 < k by omega), hlen, Option.some.injEq, exists_eq_left']

/-- A length byte is right for a burst exactly when the burst completes at its last byte and not before. -/
theorem lengthByteOk_iff_first_complete (len : Byte) (n : Nat) (hn : 6 ≤ n) :
    lengthByteOk len n = true ↔ ∀ k, k ≤ n → (6 ≤ k ∧ (len = 0x00#8 ∨ len.toNat = k) ↔ k = n) := by
  rw [lengthByteOk_iff]
  constructor
  · rintro (⟨hzero, rfl⟩ | hcount) k hk
    · rw [and_iff_left (.inl hzero)]
      omega
    · have hzero : len ≠ 0x00#8 := by rintro rfl; exact absurd hcount (by simp; omega)
      rw [or_iff_right hzero]
      omega
  · intro h
    rcases ((h n le_rfl).2 rfl).2 with hzero | hcount
    · exact .inl ⟨hzero, ((h 6 hn).1 ⟨le_rfl, .inl hzero⟩).symm⟩
    · exact .inr hcount

/-- Settles O21: both sides say that the length byte is right for the burst. -/
theorem frameDecodesExactlyWhenItCompletes : Obligations.FrameDecodesExactlyWhenItCompletes := by
  intro bytes
  rw [decode_line_iff]
  refine and_congr_right fun h6 => ?_
  obtain ⟨len, hlen⟩ : ∃ len, bytes[2]? = some len := ⟨_, List.getElem?_eq_getElem (by omega)⟩
  simp only [hlen, Option.some.injEq, exists_eq_left']
  rw [lengthByteOk_iff_first_complete len _ h6]
  exact forall₂_congr fun k hk => iff_congr (bufferComplete_take bytes len hlen k hk).symm Iff.rfl

end Sys2Proof.Machine
end

section
/-! SUPPORT. The driver's duties (30_encoding.md R84, 70_reset_and_hazards.md R236 (a)): from an invariant state only a
breach of them stops a step. -/

namespace Sys2Proof.Machine

variable {s : State}

/-- From an invariant state an instruction stops only as an RX_BYTE that is not ready for or as the reserved row. -/
theorem State.Inv.exec_answers_iff (h : s.Inv) (i : Instr) :
    (∃ t, exec i s = .next t) ↔ (∀ b, i = .rxByte b → s.st = .accum) ∧ i ≠ .reserved111 := by
  have hreceive (bytes : List Byte) : ∃ t, receive bytes s = .next t :=
    presentHeld_total (setHeld (s.held ++ bytes) s) h.filled
  cases i with
  | nop | crcInit | crcByte | arm | attemptEnd | rxError | reset => exact iff_of_true ⟨_, rfl⟩ (by simp)
  | rxByte b =>
    by_cases hst : s.st = .accum
    · rw [exec_rxByte_of_accum b s hst]
      exact iff_of_true (consumeByte_total b s h.filled) (by simp [hst])
    · rw [rxByteOutsideAccumIsStuck b s hst]
      simp [hst]
  | reserved111 => simp [exec, execReserved111]
  | frameAck | frameNack | frameIllegal | frameData | frameBadHeader | frameBadCrc =>
    exact iff_of_true (hreceive _) (by simp)

/-- The duties at an input, by its instruction. -/
theorem keepsDuty_iff (x : Input) (rest : List Input) (i : Instr) (hs : s.stream = x :: rest) (hd : decode x = .ok i) :
    keepsDuty s ↔ (∀ b, i = .rxByte b → s.st = .accum) ∧ i ≠ .reserved111 := by
  rw [keepsDuty, hs]
  dsimp only
  rw [hd]
  cases i <;> simp

theorem keepsDuty_of_error (x : Input) (rest : List Input) (r : Reject) (hs : s.stream = x :: rest)
    (hd : decode x = .error r) : keepsDuty s := by
  rw [keepsDuty, hs]
  dsimp only
  rw [hd]
  trivial

theorem keepsDuty_of_nil (hs : s.stream = []) : keepsDuty s := by
  rw [keepsDuty, hs]
  trivial

/-- A word that waits for a held byte in a ready block breaks no duty. -/
theorem keepsDuty_of_heldGoesFirst (hf : heldGoesFirst s = true) : keepsDuty s := by
  obtain ⟨hst, _, hwaits⟩ := (heldGoesFirst_iff s).1 hf
  cases hs : s.stream with
  | nil => exact keepsDuty_of_nil hs
  | cons x rest =>
    cases hd : decode x with
    | error r => exact keepsDuty_of_error x rest r hs hd
    | ok i =>
      have hword : environmentWord i = true := ((heldGoesFirst_of_decode s x rest i hs hd).1 hf).2.2
      refine (keepsDuty_iff x rest i hs hd).2 ⟨fun _ _ => hst, ?_⟩
      rintro rfl
      cases hword

/-- Settles O29: a held byte and a burst are always answered, and an instruction exactly where it breaks no duty. -/
theorem stepAnswersExactlyWhenDutiesAreKept : Obligations.StepAnswersExactlyWhenDutiesAreKept := by
  intro s hinv
  cases hf : heldGoesFirst s with
  | true =>
    rw [step, if_pos hf]
    exact iff_of_true (presentHeld_total s hinv.filled) (keepsDuty_of_heldGoesFirst hf)
  | false =>
    cases hs : s.stream with
    | nil => exact iff_of_true ⟨s, step_nothing s hs hf⟩ (keepsDuty_of_nil hs)
    | cons x rest =>
      obtain ⟨hok, herr⟩ := step_of_turn s x rest hs hf
      cases hd : decode x with
      | ok i =>
        rw [hok i hd, (inv_kept.stream s rest hinv).exec_answers_iff i, keepsDuty_iff x rest i hs hd, setStream_st]
      | error r =>
        obtain ⟨bytes⟩ := r
        rw [herr bytes hd]
        exact iff_of_true (presentHeld_total (setHeld (s.held ++ bytes) (setStream rest s)) hinv.filled)
          (keepsDuty_of_error x rest _ hs hd)

end Sys2Proof.Machine
end

section
/-! SUPPORT. Held bytes and RX_BYTE words (30_encoding.md R90, 10_state.md R36): an operation answers the same whatever
the driver's stream and the held bytes are, so a byte may come from either. -/

namespace Sys2Proof.Machine

/-- A run of `k + j` steps is a run of `k` and then one of `j`. -/
theorem run_add (k j : Nat) (s u : State) (h : Host.Core.run Sys2Proof.core k s = .next u) :
    Host.Core.run Sys2Proof.core (k + j) s = Host.Core.run Sys2Proof.core j u := by
  induction k generalizing s with
  | zero =>
    cases h
    rw [Nat.zero_add]
  | succ k ih =>
    obtain ⟨v, hv, hrest⟩ := run_next k s u h
    rw [Nat.add_right_comm, run_of_step (k + j) s v hv, ih v hrest]

/-- With nothing presented and the block not ready, every run holds the state. -/
theorem run_nothing (j : Nat) (s : State) (hs : s.stream = []) (hst : s.st ≠ .accum) :
    Host.Core.run Sys2Proof.core j s = .next s := by
  have hf : heldGoesFirst s = false := Bool.eq_false_iff.2 fun hf => hst ((heldGoesFirst_iff s).1 hf).1
  induction j with
  | zero => rfl
  | succ j ih => rw [run_of_step j s s (step_nothing s hs hf), ih]

theorem decode_rxByte (b : Byte) : decode (encode (.rxByte b)) = .ok (.rxByte b) := Laws.RoundTrip.rxByte b rfl

/-- Where nothing is held, the next word of the stream has its turn. -/
theorem step_word_of_nothing_held (x : Input) (rest : List Input) (i : Instr) (s : State) (hd : decode x = .ok i)
    (hheld : s.held = []) : step (setStream (x :: rest) s) = exec i (setStream rest s) := by
  have hf : heldGoesFirst (setStream (x :: rest) s) = false :=
    heldGoesFirst_eq_false (setStream (x :: rest) s) x rest i rfl hd (.inr (.inl hheld))
  exact (step_of_turn (setStream (x :: rest) s) x rest rfl hf).1 i hd

/-- With nothing presented, a ready block consumes the first held byte. -/
theorem step_first_held (b : Byte) (bs : List Byte) (s : State) (hst : s.st = .accum) :
    step (setHeld (b :: bs) (setStream [] s)) = consumeByte b (setHeld bs (setStream [] s)) := by
  have hf : heldGoesFirst (setHeld (b :: bs) (setStream [] s)) = true :=
    (heldGoesFirst_iff _).2 ⟨hst, by simp, by simp⟩
  rw [step_of_heldGoesFirst b bs (setHeld (b :: bs) (setStream [] s)) rfl hf]
  exact exec_rxByte_of_accum b _ hst

/-- At the environment's turn, a ready block consumes the first held byte. -/
theorem step_turn (b : Byte) (bs : List Byte) (xs : List Input) (s : State) (hst : s.st = .accum) :
    step (setHeld (b :: bs) (setStream (.line [] :: xs) s)) = consumeByte b (setHeld bs (setStream xs s)) :=
  (step_line [] xs _ rfl).trans (receive_ready [] _ b bs hst (List.append_nil _))

/-- A state is itself with the stream it has. -/
theorem setStream_self (s : State) (xs : List Input) (h : s.stream = xs) : setStream xs s = s := by
  subst h
  rfl

/-- RX_BYTE words, with nothing held, and the same bytes held, with nothing presented, lead to the same block. -/
theorem run_held_of_run_words (bytes more : List Byte) (s t : State) (hheld : s.held = [])
    (h : Host.Core.run Sys2Proof.core bytes.length (setStream (bytes.map fun b => encode (.rxByte b)) s) = .next t) :
    t.stream = [] ∧
      Host.Core.run Sys2Proof.core bytes.length (setHeld (bytes ++ more) (setStream [] s)) =
        .next (setHeld more t) := by
  induction bytes generalizing s with
  | nil =>
    cases h
    exact ⟨rfl, rfl⟩
  | cons b bytes ih =>
    obtain ⟨u, hu, hrest⟩ := run_next bytes.length _ t h
    rw [List.map_cons, step_word_of_nothing_held _ _ _ s (decode_rxByte b) hheld] at hu
    obtain ⟨hst, hb⟩ := execRxByte_next b _ u hu
    obtain ⟨_, _, _, _, hstream, hnone⟩ := consumeByte_frame b _ u hb
    rw [← setStream_self u _ hstream] at hrest
    obtain ⟨hend, hrun⟩ := ih u (hnone.trans hheld) hrest
    have hconsume := consumeByte_environment (bytes ++ more) [] b _ u hb
    have hstep := (step_first_held b (bytes ++ more) s hst).trans hconsume
    exact ⟨hend, (run_of_step bytes.length _ _ hstep).trans hrun⟩

/-- A burst that arrives at a ready block runs as its bytes do where they are held already. -/
theorem run_line_of_ready (bytes : List Byte) (k : Nat) (s : State) (hs : s.stream = [.line bytes])
    (hst : s.st = .accum) (hne : s.held ++ bytes ≠ []) (hk : 1 ≤ k) :
    Host.Core.run Sys2Proof.core k s =
      Host.Core.run Sys2Proof.core k (setHeld (s.held ++ bytes) (setStream [] s)) := by
  have hf : heldGoesFirst (setHeld (s.held ++ bytes) (setStream [] s)) = true :=
    (heldGoesFirst_iff _).2 ⟨hst, hne, by simp⟩
  have hstep : Sys2Proof.core.step s = Sys2Proof.core.step (setHeld (s.held ++ bytes) (setStream [] s)) :=
    (step_line bytes [] s hs).trans (if_pos hf).symm
  obtain ⟨j, rfl⟩ := Nat.exists_eq_add_of_le' hk
  simp only [Host.Core.run, hstep]

/-- A host's word answers the same whatever the driver's stream and the held bytes are. -/
theorem exec_environment (i : Instr) (hword : environmentWord i = false) (hline : ∀ bytes, encode i ≠ .line bytes)
    (held : List Byte) (xs : List Input) (s t : State) (h : exec i s = .next t) :
    exec i (setHeld held (setStream xs s)) = .next (setHeld held (setStream xs t)) := by
  cases i with
  | nop | crcInit | crcByte | arm | reset => cases h; rfl
  | reserved111 => cases h
  | rxByte | attemptEnd | rxError => cases hword
  | frameAck | frameNack | frameIllegal | frameData | frameBadHeader | frameBadCrc => exact absurd rfl (hline _)

theorem rxOperands_cons_rxByte (x : Input) (xs : List Input) (b : Byte) (h : decode x = .ok (.rxByte b)) :
    rxOperands (x :: xs) = b :: rxOperands xs := by
  rw [rxOperands, h]

theorem rxOperands_cons_other (x : Input) (xs : List Input) (h : ∀ b, decode x ≠ .ok (.rxByte b)) :
    rxOperands (x :: xs) = rxOperands xs := by
  rw [rxOperands]
  split
  · next b hb => exact absurd hb (h b)
  · rfl

theorem asTurns_cons_rxByte (x : Input) (xs : List Input) (b : Byte) (h : decode x = .ok (.rxByte b)) :
    asTurns (x :: xs) = .line [] :: asTurns xs := by
  rw [asTurns, h]

theorem asTurns_cons_other (x : Input) (xs : List Input) (h : ∀ b, decode x ≠ .ok (.rxByte b)) :
    asTurns (x :: xs) = x :: asTurns xs := by
  rw [asTurns]
  split
  · next b hb => exact absurd hb (h b)
  · rfl

/-- An input that is no burst decodes to an instruction that is no frame row. -/
theorem exists_decode_of_not_line (x : Input) (h : ∀ bytes, x ≠ .line bytes) :
    ∃ i, decode x = .ok i ∧ ∀ bytes, encode i ≠ .line bytes := by
  cases x with
  | word w =>
    refine ⟨decodeWord w, rfl, fun bytes hi => ?_⟩
    rw [← mkWord_fields w, encode_decodeWord] at hi
    cases hi
  | rst => exact ⟨.reset, rfl, fun bytes hi => nomatch hi⟩
  | line bytes => exact absurd rfl (h bytes)

/-- One word of a stream, with nothing held, and the same word or the environment's turn, with its byte held in front,
lead to the same block. -/
theorem step_asTurns (x : Input) (xs rest : List Input) (more : List Byte) (s u : State) (hheld : s.held = [])
    (hline : ∀ bytes, x ≠ .line bytes) (hend : decode x ≠ .ok .attemptEnd) (herror : decode x ≠ .ok .rxError)
    (h : step (setStream (x :: xs ++ rest) s) = .next u) :
    u.stream = xs ++ rest ∧ u.held = [] ∧
      step (setHeld (rxOperands (x :: xs) ++ more) (setStream (asTurns (x :: xs) ++ rest) s)) =
        .next (setHeld (rxOperands xs ++ more) (setStream (asTurns xs ++ rest) u)) := by
  obtain ⟨i, hd, hi⟩ := exists_decode_of_not_line x hline
  rw [List.cons_append, step_word_of_nothing_held x (xs ++ rest) i s hd hheld] at h
  refine ⟨exec_stream i _ u h, (exec_held i _ u hi h).trans hheld, ?_⟩
  by_cases hrx : ∃ b, i = .rxByte b
  · obtain ⟨b, rfl⟩ := hrx
    obtain ⟨hst, hb⟩ := execRxByte_next b _ u h
    rw [rxOperands_cons_rxByte x xs b hd, asTurns_cons_rxByte x xs b hd]
    have hconsume := consumeByte_environment (rxOperands xs ++ more) (asTurns xs ++ rest) b _ u hb
    exact (step_turn b (rxOperands xs ++ more) (asTurns xs ++ rest) s hst).trans hconsume
  · have hother : ∀ b, decode x ≠ .ok (.rxByte b) := fun b hb => hrx ⟨b, Except.ok.inj (hd.symm.trans hb)⟩
    have hword : environmentWord i = false := Bool.eq_false_iff.2 fun hw => by
      rcases (environmentWord_iff i).1 hw with ⟨b, rfl⟩ | rfl | rfl
      · exact hother b hd
      · exact hend hd
      · exact herror hd
    have hf : heldGoesFirst (setHeld (rxOperands xs ++ more) (setStream (x :: (asTurns xs ++ rest)) s)) = false :=
      Bool.eq_false_iff.2 fun hf => by
        have hw := ((heldGoesFirst_of_decode _ x _ i rfl hd).1 hf).2.2
        rw [hword] at hw
        cases hw
    rw [rxOperands_cons_other x xs hother, asTurns_cons_other x xs hother, List.cons_append,
      (step_of_turn _ x _ rfl hf).1 i hd]
    exact exec_environment i hword hi _ _ (setStream (xs ++ rest) s) u h

/-- A stream of words, with nothing held, and the same stream with turns for its RX_BYTE words, whose bytes are held,
lead to the same block. -/
theorem run_asTurns (xs rest : List Input) (more : List Byte) (s t : State) (hheld : s.held = [])
    (hxs : ∀ x ∈ xs, (∀ bytes, x ≠ .line bytes) ∧ decode x ≠ .ok .attemptEnd ∧ decode x ≠ .ok .rxError)
    (h : Host.Core.run Sys2Proof.core xs.length (setStream (xs ++ rest) s) = .next t) :
    Host.Core.run Sys2Proof.core xs.length (setHeld (rxOperands xs ++ more) (setStream (asTurns xs ++ rest) s)) =
      .next (setHeld more t) := by
  induction xs generalizing s with
  | nil =>
    cases h
    rfl
  | cons x xs ih =>
    obtain ⟨⟨hline, hend, herror⟩, hmore⟩ := List.forall_mem_cons.1 hxs
    obtain ⟨u, hu, hrest⟩ := run_next xs.length _ t h
    obtain ⟨hstream, hnone, hstep⟩ := step_asTurns x xs rest more s u hheld hline hend herror hu
    rw [← setStream_self u _ hstream] at hrest
    exact (run_of_step xs.length _ _ hstep).trans (ih u hnone hmore hrest)

/-- Settles O16: a ready block consumes a held byte as it consumes the byte of an RX_BYTE word, and a host's word meets
the same block either way. -/
theorem frameEqualsItsRxByteSteps : Obligations.FrameEqualsItsRxByteSteps := by
  refine ⟨fun i bytes k s t hi hst _ hpos hk hrun => ?_, fun xs rest more s t hheld _ _ hxs hrun =>
    run_asTurns xs rest more s t hheld hxs hrun⟩
  have hlen : ((s.held ++ bytes).take k).length = k := List.length_take_of_le hk
  have hne : s.held ++ bytes ≠ [] := List.ne_nil_of_length_pos (by omega)
  obtain ⟨hend, hheld⟩ := run_held_of_run_words ((s.held ++ bytes).take k) ((s.held ++ bytes).drop k) (setHeld [] s) t
    rfl (by rw [hlen]; exact hrun)
  rw [hlen, List.take_append_drop] at hheld
  have hframe : Host.Core.run Sys2Proof.core k { s with stream := [encode i] } =
      .next (setHeld ((s.held ++ bytes).drop k) t) :=
    (run_line_of_ready bytes k { s with stream := [encode i] } (congrArg (· :: []) hi) hst hne hpos).trans hheld
  refine ⟨hframe, fun hdone j => ?_⟩
  rw [run_add k j _ _ hframe]
  exact run_nothing j _ hend hdone

end Sys2Proof.Machine
end

section
/-! SUPPORT. The block against the document's accumulation loop (41_reassembler.md R133, R134): each read attempt, as
the stream gives it, takes both from one place of the loop to the same next one. -/

namespace Sys2Proof.Machine

/-- Some run of the machine leads from the one state to the other. -/
def Reaches (s t : State) : Prop := ∃ k, Host.Core.run Sys2Proof.core k s = .next t

theorem Reaches.refl (s : State) : Reaches s s := ⟨0, rfl⟩

theorem Reaches.trans {s t u : State} (h : Reaches s t) (h' : Reaches t u) : Reaches s u := by
  obtain ⟨k, hk⟩ := h
  obtain ⟨j, hj⟩ := h'
  exact ⟨k + j, (run_add k j s t hk).trans hj⟩

theorem Reaches.of_step {s t u : State} (h : step s = .next t) (h' : Reaches t u) : Reaches s u := by
  obtain ⟨k, hk⟩ := h'
  exact ⟨k + 1, (run_of_step k s t h).trans hk⟩

/-- The block is where the loop stands, the buffer cut at 255 bytes (92_eei_decisions.md D5). -/
def ShowsLoop : LoopState → State → Prop
  | .ended r buffer attempts, s =>
    s.st = .done ∧ s.res = r ∧ s.att = attempts ∧ s.buf = cellsOf (buffer.take 255)
  | .reading buffer attempts, s =>
    s.st = .accum ∧ s.res = .none ∧ s.att = attempts ∧ s.buf = cellsOf (buffer.take 255)

/-- Where the block is does not depend on the driver's stream and the held bytes. -/
theorem ShowsLoop.set_environment {l : LoopState} {s : State} (h : ShowsLoop l s) (xs : List Input)
    (bs : List Byte) : ShowsLoop l (setHeld bs (setStream xs s)) := by
  cases l <;> exact h

/-- The block accumulates what the loop has read, not complete yet. -/
structure Reading (buffer : List Byte) (attempts maxAttempts : Nat) (s : State) : Prop where
  shows : ShowsLoop (.reading buffer attempts) s
  count : s.n.toNat = (buffer.take 255).length
  parameter : s.maxAttempts = maxAttempts
  incomplete : bufferComplete buffer = false

variable {buffer : List Byte} {attempts maxAttempts : Nat} {s : State}

theorem Reading.set_environment (h : Reading buffer attempts maxAttempts s) (xs : List Input) (bs : List Byte) :
    Reading buffer attempts maxAttempts (setHeld bs (setStream xs s)) :=
  ⟨h.shows.set_environment xs bs, h.count, h.parameter, h.incomplete⟩

theorem Reading.accum (h : Reading buffer attempts maxAttempts s) : s.st = .accum := h.shows.1

/-- A buffer that is incomplete at 255 bytes or more stays so: no length byte reaches further (R132). -/
theorem bufferComplete_append_of_full (buffer : List Byte) (b : Byte) (hfull : 255 ≤ buffer.length)
    (hincomplete : bufferComplete buffer = false) : bufferComplete (buffer ++ [b]) = false := by
  rw [Bool.eq_false_iff, ne_eq, bufferComplete_iff] at hincomplete ⊢
  rintro ⟨_, len, h2, hlen⟩
  rw [List.getElem?_append_left (by omega)] at h2
  rcases hlen with hzero | hcount
  · exact hincomplete ⟨by omega, len, h2, .inl hzero⟩
  · rw [List.length_append, List.length_singleton] at hcount
    have := len.isLt
    omega

/-- The block after it took what the loop read: in DONE where that is complete, else accumulating it. -/
def TookRead (buffer : List Byte) (attempts maxAttempts : Nat) (s : State) : Prop :=
  (bufferComplete buffer = true ∧ ShowsLoop (.ended (loopOutcome buffer) buffer attempts) s) ∨
    Reading buffer attempts maxAttempts s

/-- One more byte that the loop reads, consumed by the block. -/
theorem Reading.consumeByte (h : Reading buffer attempts maxAttempts s) (b : Byte) :
    ∃ t, consumeByte b s = .next t ∧ t.stream = s.stream ∧ t.held = s.held ∧
      TookRead (buffer ++ [b]) attempts maxAttempts t := by
  obtain ⟨⟨hst, hres, hatt, hbuf⟩, hcount, hmax, hincomplete⟩ := h
  by_cases hlen : buffer.length < 255
  · rw [List.take_of_length_le hlen.le] at hbuf hcount
    have htake : (buffer ++ [b]).take 255 = buffer ++ [b] := List.take_of_length_le (by simpa using hlen)
    have hstored := storeByte_buf_cellsOf b s buffer hbuf hcount hlen
    rw [consumeByte_cellsOf b s buffer hbuf hcount hlen]
    cases hc : bufferComplete (buffer ++ [b]) with
    | true =>
      refine ⟨_, rfl, rfl, rfl, .inl ⟨hc, rfl, ?_, hatt, ?_⟩⟩
      · exact (loopOutcome_of_first_complete buffer b hincomplete).symm
      · rw [htake]
        exact hstored
    | false =>
      refine ⟨_, rfl, rfl, rfl, .inr ⟨⟨hst, hres, hatt, ?_⟩, ?_, hmax, hc⟩⟩
      · rw [htake]
        exact hstored
      · rw [htake, List.length_append, List.length_singleton, ← hcount]
        exact storeByte_n_toNat b s (by omega)
  · have htake : (buffer ++ [b]).take 255 = buffer.take 255 := List.take_append_of_le_length (by omega)
    have hfull : s.n.toNat = 255 := by rw [hcount, List.length_take]; omega
    refine ⟨s, consumeByte_full b s hfull, rfl, rfl, .inr ⟨⟨hst, hres, hatt, ?_⟩, ?_, hmax, ?_⟩⟩
    · rw [htake, hbuf]
    · rw [htake, hcount]
    · exact bufferComplete_append_of_full buffer b (by omega) hincomplete

/-- A held byte goes before a word that waits for it, and with nothing held nothing changes. -/
theorem Reaches.of_presentHeld {s t u : State} (hst : s.st = .accum)
    (hwaits : ∀ x rest, s.stream = x :: rest → waitsForHeld x = true) (h : presentHeld s = .next t)
    (h' : Reaches t u) : Reaches s u := by
  by_cases hheld : s.held = []
  · rw [presentHeld, hheld] at h
    cases h
    exact h'
  · exact .of_step ((if_pos ((heldGoesFirst_iff s).2 ⟨hst, hheld, hwaits⟩)).trans h) h'

/-- The bytes of one read, held by the environment, are all taken: the block is ready for each, since none but the last
completes the frame. -/
theorem Reading.takes_held (h : Reading buffer attempts maxAttempts s)
    (hwaits : ∀ x rest, s.stream = x :: rest → waitsForHeld x = true)
    (hopen : ∀ k, k < s.held.length → bufferComplete (buffer ++ s.held.take k) = false) :
    ∃ u t, presentHeld s = .next u ∧ Reaches u t ∧ t.stream = s.stream ∧ t.held = [] ∧
      TookRead (buffer ++ s.held) attempts maxAttempts t := by
  generalize hheld : s.held = bs at hopen ⊢
  induction bs generalizing buffer s with
  | nil =>
    refine ⟨s, s, by rw [presentHeld, hheld], .refl s, rfl, hheld, .inr ?_⟩
    rwa [List.append_nil]
  | cons b bs ih =>
    obtain ⟨u, hu, hstream, hbs, htook⟩ := (h.set_environment s.stream bs).consumeByte b
    have hpresent : presentHeld s = .next u := by
      rw [presentHeld, hheld]
      dsimp only
      rw [if_pos h.accum]
      exact (exec_rxByte_of_accum b (setHeld bs s) h.accum).trans hu
    rcases htook with ⟨hcomplete, hended⟩ | hreading
    · have hlast : bs = [] := by
        by_contra hne
        have := hopen 1 (by simpa using List.length_pos_iff.2 hne)
        rw [List.take_succ_cons, List.take_zero, hcomplete] at this
        cases this
      subst hlast
      exact ⟨u, u, hpresent, .refl u, hstream, hbs, .inl ⟨hcomplete, hended⟩⟩
    · have hopen' : ∀ k, k < bs.length → bufferComplete (buffer ++ [b] ++ bs.take k) = false := fun k hk => by
        simpa using hopen (k + 1) (by simpa using hk)
      have hwaits' : ∀ x rest, u.stream = x :: rest → waitsForHeld x = true := by
        rw [hstream]
        exact hwaits
      obtain ⟨v, t, hv, hreach, hstream', hnone, htook⟩ := ih hreading hwaits' hbs hopen'
      rw [List.append_assoc, List.singleton_append] at htook
      exact ⟨u, t, hpresent, .of_presentHeld hreading.accum hwaits' hv hreach, hstream'.trans hstream, hnone, htook⟩

theorem decode_attemptEnd : decode (encode .attemptEnd) = .ok .attemptEnd := Laws.RoundTrip.attemptEnd rfl

/-- The end of an attempt has its turn where the block is not ready or nothing is held. -/
theorem step_attemptEnd (s : State) (rest : List Input) (hs : s.stream = encode .attemptEnd :: rest)
    (hturn : s.st ≠ .accum ∨ s.held = []) : step s = exec .attemptEnd (setStream rest s) := by
  have hf : heldGoesFirst s = false :=
    heldGoesFirst_eq_false s _ rest _ hs decode_attemptEnd (hturn.imp_right .inl)
  exact (step_of_turn s _ rest hs hf).1 _ decode_attemptEnd

/-- A block that is not ready takes the rest of a stream of read attempts without moving: their bytes are held, and
their ends are ignored. -/
theorem reaches_of_not_ready (chunks : List (List Byte)) (s : State) (hst : s.st ≠ .accum)
    (hs : s.stream = attemptInputs chunks) : ∃ held, Reaches s (setHeld held (setStream [] s)) := by
  induction chunks generalizing s with
  | nil =>
    rw [setStream_self s [] hs]
    exact ⟨s.held, .refl s⟩
  | cons chunk chunks ih =>
    have harrive := (step_line chunk _ s hs).trans (receive_not_ready chunk _ hst)
    have hturn := step_attemptEnd
      (setHeld (s.held ++ chunk) (setStream (encode .attemptEnd :: attemptInputs chunks) s)) _ rfl (.inl hst)
    have hended := hturn.trans (exec_attemptEnd_ignored _ hst)
    obtain ⟨held, hreach⟩ := ih (setHeld (s.held ++ chunk) (setStream (attemptInputs chunks) s)) hst rfl
    exact ⟨held, .of_step harrive (.of_step hended hreach)⟩

/-- The end of an attempt on an incomplete buffer: the last one allowed ends both in TIMEOUT, any other is counted. -/
theorem Reading.endAttempt (h : Reading buffer attempts maxAttempts s) (rest : List Input)
    (hs : s.stream = encode .attemptEnd :: rest) (hheld : s.held = []) :
    ∃ t, step s = .next t ∧ t.stream = rest ∧
      ((attempts + 1 = maxAttempts ∧ ShowsLoop (.ended .timeout buffer (attempts + 1)) t) ∨
        (attempts + 1 ≠ maxAttempts ∧ t.held = [] ∧ Reading buffer (attempts + 1) maxAttempts t)) := by
  obtain ⟨⟨hst, hres, rfl, hbuf⟩, hcount, rfl, hincomplete⟩ := h
  have hturn := step_attemptEnd s rest hs (.inr hheld)
  by_cases hlast : s.att + 1 = s.maxAttempts
  · exact ⟨_, hturn.trans (exec_attemptEnd_last (setStream rest s) hst hlast), rfl, .inl ⟨hlast, rfl, rfl, rfl, hbuf⟩⟩
  · exact ⟨_, hturn.trans (exec_attemptEnd_counted (setStream rest s) hst hlast), rfl,
      .inr ⟨hlast, hheld, ⟨hst, hres, rfl, hbuf⟩, hcount, rfl, hincomplete⟩⟩

/-- The bytes of a read arrive, and the block takes them all before the next word of the environment's. -/
theorem Reading.takes_chunk (h : Reading buffer attempts maxAttempts s) (chunk : List Byte) (rest : List Input)
    (hheld : s.held = []) (hs : s.stream = .line chunk :: encode .attemptEnd :: rest)
    (hopen : ∀ k, k < chunk.length → bufferComplete (buffer ++ chunk.take k) = false) :
    ∃ t, Reaches s t ∧ t.stream = encode .attemptEnd :: rest ∧ t.held = [] ∧
      TookRead (buffer ++ chunk) attempts maxAttempts t := by
  have hwaits : ∀ x xs, encode .attemptEnd :: rest = x :: xs → waitsForHeld x = true := by
    rintro x xs hx
    rw [← (List.cons.inj hx).1]
    exact waitsForHeld_of_environment _ (.inr (.inl decode_attemptEnd))
  obtain ⟨u, t, hu, hreach, ht⟩ := (h.set_environment (encode .attemptEnd :: rest) chunk).takes_held hwaits hopen
  have harrive : step s = .next u := by
    rw [step_line chunk _ s hs, receive, setStream_held, hheld]
    exact hu
  exact ⟨t, .of_step harrive hreach, ht⟩

/-- One read attempt: either the loop leaves, and the block is in DONE with its outcome, or both accumulate on. -/
theorem Reading.attempt (h : Reading buffer attempts maxAttempts s) (chunk : List Byte) (more : List (List Byte))
    (hheld : s.held = []) (hs : s.stream = attemptInputs (chunk :: more))
    (hopen : ∀ k, k < chunk.length → bufferComplete (buffer ++ chunk.take k) = false) :
    ∃ t, Reaches s t ∧ t.stream = attemptInputs more ∧
      ((t.st ≠ .accum ∧ ShowsLoop (documentLoop maxAttempts buffer attempts (chunk :: more)) t) ∨
        (t.held = [] ∧ Reading (buffer ++ chunk) (attempts + 1) maxAttempts t ∧
          documentLoop maxAttempts buffer attempts (chunk :: more) =
            documentLoop maxAttempts (buffer ++ chunk) (attempts + 1) more)) := by
  obtain ⟨u, hu, hstream, hnone, ⟨hcomplete, hended⟩ | hreading⟩ :=
    h.takes_chunk chunk (attemptInputs more) hheld hs hopen
  · have hst : u.st ≠ .accum := by rw [hended.1]; decide
    have hignored := (step_attemptEnd u _ hstream (.inl hst)).trans (exec_attemptEnd_ignored (setStream _ u) hst)
    refine ⟨_, hu.trans (.of_step hignored (.refl _)), rfl, .inl ⟨hst, ?_⟩⟩
    rw [documentLoop, if_pos hcomplete]
    exact hended
  · rw [documentLoop, if_neg (Bool.eq_false_iff.1 hreading.incomplete)]
    obtain ⟨t, ht, hrest, ⟨hlast, hended⟩ | ⟨hmore, hnone, hcounted⟩⟩ :=
      hreading.endAttempt (attemptInputs more) hstream hnone
    · refine ⟨t, hu.trans (.of_step ht (.refl t)), hrest, .inl ⟨by rw [hended.1]; decide, ?_⟩⟩
      rw [if_pos hlast]
      exact hended
    · exact ⟨t, hu.trans (.of_step ht (.refl t)), hrest, .inr ⟨hnone, hcounted, if_neg hmore⟩⟩

/-- The block takes a whole stream of read attempts and is then where the loop stands. -/
theorem Reading.reaches_documentLoop (h : Reading buffer attempts maxAttempts s) (chunks : List (List Byte))
    (hheld : s.held = []) (hs : s.stream = attemptInputs chunks) (hsurplus : noSurplus buffer chunks) :
    ∃ t, Reaches s t ∧ t.stream = [] ∧ ShowsLoop (documentLoop maxAttempts buffer attempts chunks) t := by
  induction chunks generalizing buffer attempts s with
  | nil => exact ⟨s, .refl s, hs, h.shows⟩
  | cons chunk more ih =>
    obtain ⟨hopen, hrest⟩ := hsurplus
    obtain ⟨u, hu, hstream, ⟨hst, hshows⟩ | ⟨hnone, hreading, hloop⟩⟩ := h.attempt chunk more hheld hs hopen
    · obtain ⟨held, hreach⟩ := reaches_of_not_ready more u hst hstream
      exact ⟨_, hu.trans hreach, rfl, hshows.set_environment [] held⟩
    · obtain ⟨t, ht, hend, hshows⟩ := ih hreading hnone hstream (hrest hreading.incomplete)
      rw [hloop]
      exact ⟨t, hu.trans ht, hend, hshows⟩

/-- Settles O54: an armed block has read nothing, as the loop when it starts, and each attempt takes both to the same
place. -/
theorem blockAgreesWithTheDocumentLoop : Obligations.BlockAgreesWithTheDocumentLoop := by
  intro chunks s harmed _ hsurplus
  have hstart : Reading [] 0 s.maxAttempts s :=
    ⟨⟨harmed.st, harmed.res, harmed.att, harmed.buf⟩, by rw [harmed.n]; rfl, rfl, rfl⟩
  obtain ⟨t, ⟨k, hk⟩, hend, hshows⟩ :=
    (hstart.set_environment (attemptInputs chunks) s.held).reaches_documentLoop chunks harmed.held rfl hsurplus
  refine ⟨k, t, hk, hend, fun r buffer attempts hl => ?_, fun buffer attempts hl => ?_⟩
  · rw [hl] at hshows
    exact hshows
  · rw [hl] at hshows
    exact hshows

end Sys2Proof.Machine
end

section
/-! SUPPORT. The validator and the document's `decode` on the wire bytes of a frame (42_validator.md R160 to R165), and
the checksum check as the residue of the whole frame (40_crc16.md R111). -/

namespace Sys2Proof.Machine

theorem length_frameBytes_eq_add (start addr len cmd : Byte) (p : List Byte) (lo hi : Byte) :
    (frameBytes start addr len cmd p lo hi).length = 6 + p.length := by
  rw [length_frameBytes, frameLength, config_headerLen, config_crcLen]
  omega

section
variable (start addr len cmd : Byte) (p : List Byte) (lo hi : Byte)

theorem headerOk_frameBytes :
    headerOk (frameBytes start addr len cmd p lo hi) = headerMatches start addr := rfl

theorem checksumOk_frameBytes :
    checksumOk (frameBytes start addr len cmd p lo hi) = checksumMatches (frameBody start addr len cmd p) lo hi := by
  rw [Bool.eq_iff_iff, frameBytes, checksumOk_append, checksumMatches, beq_iff_eq, eq_comm]

/-- Classification sees a control frame by its empty payload and its command byte (R163). -/
theorem classify_frameBytes :
    classify (frameBytes start addr len cmd p lo hi) =
      if p = [] ∧ cmd = 0x00#8 then .ack
      else if p = [] ∧ cmd = 0xFF#8 then .nack
      else if p = [] ∧ cmd = 0x30#8 then .illegal
      else .data := by
  have hcmd : (frameBytes start addr len cmd p lo hi)[3]? = some cmd := rfl
  rw [classify, hcmd, frameBytes, stripped_append]
  cases p <;> simp [frameBody]

theorem headerMatches_iff : headerMatches start addr = true ↔ start = 0x02#8 ∧ addr = 0x03#8 := by
  rw [headerMatches, Bool.and_eq_true, beq_iff_eq, beq_iff_eq, config_startCode, config_periphAddr]

theorem checksumMatches_iff (body : List Byte) :
    checksumMatches body lo hi = true ↔ (crc16 body).toNat = lo.toNat + 256 * hi.toNat := by
  rw [checksumMatches, beq_iff_eq, ← lePair_toNat, BitVec.toNat_inj]

end

/-- Settles O49: each check of `validate` on a frame in wire order, in the order of the checks. -/
theorem validationChecksInOrder : Obligations.ValidationChecksInOrder := by
  intro start addr len cmd p lo hi
  change validate (frameBytes start addr len cmd p lo hi) = _
  have hbad : headerMatches start addr = false ↔ start ≠ 0x02#8 ∨ addr ≠ 0x03#8 := by
    rw [Bool.eq_false_iff, ne_eq, headerMatches_iff, not_and_or]
  have hwrong : checksumMatches (frameBody start addr len cmd p) lo hi = false ↔
      (crc16 (frameBody start addr len cmd p)).toNat ≠ lo.toNat + 256 * hi.toNat := by
    rw [Bool.eq_false_iff, ne_eq, checksumMatches_iff]
  simp only [validate, headerOk_frameBytes, checksumOk_frameBytes, classify_frameBytes, Bool.not_eq_true', hbad, hwrong]
  rfl

/-- The checksum check passes exactly on residue 0 of the whole frame (R111). -/
theorem checksumOk_iff_residue (raw : List Byte) (h6 : 6 ≤ raw.length) :
    checksumOk raw = true ↔ crc16 raw = 0x0000#16 := by
  obtain ⟨start, addr, len, cmd, p, lo, hi, rfl⟩ := exists_frameBytes raw h6
  rw [checksumOk_frameBytes, checksumMatches_iff, eq_comm, frameBytes, checksumResidueIsZero]

theorem validate_of_bad_header (raw : List Byte) (h : headerOk raw = false) : validate raw = .framing := by
  rw [validate, h]
  rfl

theorem validate_of_bad_checksum (raw : List Byte) (hheader : headerOk raw = true) (hcrc : checksumOk raw = false) :
    validate raw = .checksum := by
  rw [validate, hheader, hcrc]
  rfl

theorem validate_of_checks (raw : List Byte) (hheader : headerOk raw = true) (hcrc : checksumOk raw = true) :
    validate raw = classify raw := by
  rw [validate, hheader, hcrc]
  rfl

/-- Settles O50: under a good header the checksum check alone gives CHECKSUM, and it passes on residue 0. -/
theorem checksumPassesExactlyOnZeroResidue : Obligations.ChecksumPassesExactlyOnZeroResidue := by
  intro raw h6 hstart haddr
  have hheader : headerOk raw = true := (headerOk_iff raw).2 ⟨hstart, haddr⟩
  rw [← checksumOk_iff_residue raw h6]
  cases hcrc : checksumOk raw with
  | false => simp [validate_of_bad_checksum raw hheader hcrc]
  | true =>
    rw [validate_of_checks raw hheader hcrc]
    rcases classify_cases raw with h | h | h | h <;> simp [h]

/-- The document's `decode` of a frame with a wrong header (R161). -/
theorem documentDecode_of_bad_header (raw : List Byte) (h6 : 6 ≤ raw.length) (h : headerOk raw = false) :
    documentDecode raw = .error .framing := by
  rw [documentDecode, if_neg (by simpa using h6), h]
  rfl

/-- The document's `decode` of a frame with a good header and a wrong checksum (R162). -/
theorem documentDecode_of_bad_checksum (raw : List Byte) (h6 : 6 ≤ raw.length) (hheader : headerOk raw = true)
    (hcrc : checksumOk raw = false) : documentDecode raw = .error .checksum := by
  rw [documentDecode, if_neg (by simpa using h6), hheader, hcrc]
  rfl

/-- The document's `decode` of a frame that passes both checks gives its command and payload (R165). -/
theorem documentDecode_frameBytes (start addr len cmd : Byte) (p : List Byte) (lo hi : Byte)
    (hheader : headerMatches start addr = true)
    (hcrc : checksumMatches (frameBody start addr len cmd p) lo hi = true) :
    documentDecode (frameBytes start addr len cmd p lo hi) = .ok (cmd, p) := by
  have h6 : ¬ (frameBytes start addr len cmd p lo hi).length < config.minFrame := by
    rw [length_frameBytes_eq_add, config_minFrame]
    omega
  rw [documentDecode, if_neg h6, headerOk_frameBytes, checksumOk_frameBytes, hheader, hcrc, frameBytes, stripped_append]
  rfl

/-- The result a frame row is named after. -/
def frameResult : Instr → Result
  | .frameAck _ _ _ => .ack
  | .frameNack _ _ _ => .nack
  | .frameIllegal _ _ _ => .illegal
  | .frameData _ _ _ _ _ => .data
  | .frameBadHeader _ _ _ _ _ _ _ => .framing
  | .frameBadCrc _ _ _ _ _ => .checksum
  | _ => .none

/-- The decoder's classification of a frame and the validator's are one. -/
theorem validate_frameBytes (start addr len cmd : Byte) (p : List Byte) (lo hi : Byte) :
    validate (frameBytes start addr len cmd p lo hi) = frameResult (classifyFrame start addr len cmd p lo hi) := by
  rw [validate, headerOk_frameBytes, checksumOk_frameBytes, classify_frameBytes, classifyFrame]
  simp only [apply_ite frameResult, Bool.and_eq_true, List.isEmpty_iff, beq_iff_eq, config_ackSentinel,
    config_nackSentinel, config_illegalSentinel]
  rfl

/-- Validation of a well-formed frame row's bytes gives the result of the row. -/
theorem validate_of_wellFormed (i : Instr) (bytes : List Byte) (hline : encode i = .line bytes)
    (hw : i.wellFormed = true) : validate bytes = frameResult i := by
  have hd : decode (.line bytes) = .ok i := hline ▸ decodeInvertsEncode i hw
  obtain ⟨start, addr, len, cmd, p, lo, hi, rfl⟩ := exists_frameBytes bytes (length_of_encode i bytes hline)
  rw [validate_frameBytes]
  cases hlen : lengthByteOk len (frameLength p) with
  | true => rw [Except.ok.inj (hd.symm.trans (decode_line_of_length _ _ _ _ _ _ _ hlen))]
  | false =>
    rw [decode, decodeFrame_frameBytes, hlen] at hd
    cases hd

end Sys2Proof.Machine
end

section
/-! SUPPORT. An armed block that takes a sequence of bytes (41_reassembler.md R123, R127 to R129): as RX_BYTE words of
which none but the last completes a frame, and as a burst on the machine's stream. -/

namespace Sys2Proof.Machine

/-- The state with these bytes in the buffer, and nothing else changed. -/
def buffering (bytes : List Byte) (s : State) : State :=
  { s with buf := cellsOf bytes, n := BitVec.ofNat 8 bytes.length }

/-- The state with these bytes in the buffer, and the result of validation where they are a complete frame. -/
def afterBytes (bytes : List Byte) (s : State) : State :=
  if bufferComplete bytes then enterResult (validate bytes) (buffering bytes s) else buffering bytes s

theorem afterBytes_of_complete {bytes : List Byte} (s : State) (h : bufferComplete bytes = true) :
    afterBytes bytes s = enterResult (validate bytes) (buffering bytes s) := if_pos h

theorem afterBytes_of_incomplete {bytes : List Byte} (s : State) (h : bufferComplete bytes = false) :
    afterBytes bytes s = buffering bytes s := if_neg (Bool.eq_false_iff.1 h)

/-- An armed block buffers nothing yet. -/
theorem State.Armed.buffering_nil {s : State} (h : s.Armed) : buffering [] s = s := by
  obtain ⟨_, hn, hbuf, _⟩ := h
  obtain ⟨crc, st, n, buf, att, res, viol, maxAttempts, stream, held⟩ := s
  subst hn hbuf
  rfl

theorem buffering_n_toNat (bytes : List Byte) (s : State) (hlen : bytes.length ≤ 255) :
    (buffering bytes s).n.toNat = bytes.length := by
  rw [buffering, BitVec.toNat_ofNat, Nat.mod_eq_of_lt (by omega)]

theorem cellAt_buffering (bytes : List Byte) (s : State) (i : Nat) : cellAt (buffering bytes s).buf i = bytes[i]? :=
  cellAt_cellsOf bytes i

theorem storeByte_buffering (b : Byte) (bytes : List Byte) (s : State) (hlen : bytes.length < 255) :
    storeByte b (buffering bytes s) = buffering (bytes ++ [b]) s := by
  have hbuf := storeByte_buf_cellsOf b (buffering bytes s) bytes rfl (buffering_n_toNat bytes s hlen.le) hlen
  have hn : (buffering bytes s).n + 1 = BitVec.ofNat 8 (bytes ++ [b]).length := by
    rw [List.length_append, List.length_singleton, BitVec.ofNat_add]
    rfl
  rw [storeByte, hn, ← storeByte_buf, hbuf]
  rfl

/-- One byte more, consumed by a block that is not full. -/
theorem consumeByte_buffering (b : Byte) (bytes : List Byte) (s : State) (hlen : bytes.length < 255) :
    consumeByte b (buffering bytes s) = .next (afterBytes (bytes ++ [b]) s) := by
  rw [consumeByte_cellsOf b (buffering bytes s) bytes rfl (buffering_n_toNat bytes s hlen.le) hlen,
    storeByte_buffering b bytes s hlen]
  rfl

/-- Bytes fed behind those buffered, of which none but the last may complete the frame, are all consumed. -/
theorem feedBytes_buffering (bytes more : List Byte) (s : State) (hst : s.st = .accum)
    (hlen : (bytes ++ more).length ≤ 255)
    (hopen : ∀ k < more.length, bufferComplete (bytes ++ more.take k) = false) :
    feedBytes more (afterBytes bytes s) = .next (afterBytes (bytes ++ more) s) := by
  induction more generalizing bytes with
  | nil => rw [feedBytes, List.append_nil]
  | cons b more ih =>
    have hincomplete : bufferComplete bytes = false := by simpa using hopen 0 (by simp)
    have hopen' : ∀ k < more.length, bufferComplete (bytes ++ [b] ++ more.take k) = false := fun k hk => by
      simpa using hopen (k + 1) (by simpa using hk)
    have hbyte : execRxByte b (afterBytes bytes s) = .next (afterBytes (bytes ++ [b]) s) := by
      rw [afterBytes_of_incomplete s hincomplete]
      exact (exec_rxByte_of_accum b (buffering bytes s) hst).trans
        (consumeByte_buffering b bytes s (by simp at hlen; omega))
    rw [feedBytes, hbyte, List.append_cons bytes b more]
    exact ih (bytes ++ [b]) (by simpa using hlen) hopen'

/-- Bytes fed to an armed block, of which none but the last may complete the frame, are all consumed. -/
theorem State.Armed.feeds {s : State} (h : s.Armed) (bytes : List Byte) (hlen : bytes.length ≤ 255)
    (hopen : ∀ k < bytes.length, bufferComplete (bytes.take k) = false) :
    feedBytes bytes s = .next (afterBytes bytes s) := by
  have hfeed := feedBytes_buffering [] bytes s h.st hlen hopen
  rwa [afterBytes_of_incomplete s rfl, h.buffering_nil] at hfeed

/-- Bytes whose length byte never lets them complete leave an armed block accumulating (R128). -/
theorem State.Armed.feeds_incomplete {s : State} (h : s.Armed) {bytes : List Byte} {len : Byte}
    (hbyte : bytes[2]? = some len) (hlen : bytes.length ≤ 255)
    (hnever : ∀ k ≤ bytes.length, ¬ (6 ≤ k ∧ (len = 0x00#8 ∨ len.toNat = k))) :
    feedBytes bytes s = .next (buffering bytes s) := by
  have hopen : ∀ k ≤ bytes.length, bufferComplete (bytes.take k) = false := fun k hk =>
    Bool.eq_false_iff.2 fun hc => hnever k hk ((bufferComplete_take bytes len hbyte k hk).1 hc)
  rw [h.feeds bytes hlen fun k hk => hopen k hk.le, afterBytes_of_incomplete]
  simpa using hopen bytes.length le_rfl

/-- Bytes with the right length byte complete at the last of them on an armed block (R127, R129). -/
theorem State.Armed.feeds_complete {s : State} (h : s.Armed) {bytes : List Byte} {len : Byte}
    (hbyte : bytes[2]? = some len) (h6 : 6 ≤ bytes.length) (hlen : lengthByteOk len bytes.length = true) :
    feedBytes bytes s = .next (enterResult (validate bytes) (buffering bytes s)) := by
  have hfirst : ∀ k ≤ bytes.length, (bufferComplete (bytes.take k) = true ↔ k = bytes.length) := fun k hk =>
    (bufferComplete_take bytes len hbyte k hk).trans ((lengthByteOk_iff_first_complete len _ h6).1 hlen k hk)
  have h255 : bytes.length ≤ 255 := by
    have := len.isLt
    rcases (lengthByteOk_iff len _).1 hlen with ⟨_, hsix⟩ | hcount <;> omega
  rw [h.feeds bytes h255 fun k hk => Bool.eq_false_iff.2 fun hc => hk.ne ((hfirst k hk.le).1 hc),
    afterBytes_of_complete]
  simpa using (hfirst bytes.length le_rfl).2 rfl

/-- The first bytes of a sequence, as many as its length byte completes, complete on an armed block (R127, R129). -/
theorem State.Armed.feeds_prefix {s : State} (h : s.Armed) {bytes : List Byte} {len : Byte}
    (hbyte : bytes[2]? = some len) (m : Nat) (h6 : 6 ≤ m) (hm : m ≤ bytes.length) (hlen : lengthByteOk len m = true) :
    feedBytes (bytes.take m) s = .next (enterResult (validate (bytes.take m)) (buffering (bytes.take m) s)) := by
  have htake : (bytes.take m).length = m := List.length_take_of_le hm
  refine h.feeds_complete (len := len) ?_ (by omega) (by rw [htake, hlen])
  rw [List.getElem?_take_of_lt (by omega), hbyte]

/-- The machine presents held bytes, with nothing in its stream, as RX_BYTE words feed them. -/
theorem run_held_of_feedBytes (bytes : List Byte) (s t : State) (h : feedBytes bytes s = .next t) :
    Host.Core.run Sys2Proof.core bytes.length (setHeld bytes (setStream [] s)) =
      .next (setHeld [] (setStream [] t)) := by
  induction bytes generalizing s with
  | nil =>
    cases h
    rfl
  | cons b bytes ih =>
    rw [feedBytes] at h
    split at h
    · next u hu =>
      obtain ⟨hst, hb⟩ := execRxByte_next b s u hu
      have hstep := (step_first_held b bytes s hst).trans (consumeByte_environment bytes [] b s u hb)
      exact (run_of_step bytes.length _ _ hstep).trans (ih u h)
    · cases h
    · cases h

/-- A frame row on an armed block consumes the first of its bytes, and the others are held (R90). -/
theorem State.Armed.exec_frame {s : State} (h : s.Armed) (i : Instr) (b : Byte) (bs : List Byte)
    (hi : encode i = .line (b :: bs)) : exec i s = .next { s with buf := cellsOf [b], n := 1, held := bs } := by
  have hready := receive_ready (b :: bs) s b bs h.st (by rw [h.held, List.nil_append])
  rw [exec_line i _ s hi, hready, ← h.buffering_nil]
  exact consumeByte_buffering b [] (setHeld bs s) (by decide)

/-- A well-formed frame row alone on the stream of an armed block ends, one byte a step, in the result of the row. -/
theorem State.Armed.run_frame {s : State} (h : s.Armed) (i : Instr) (bytes : List Byte)
    (hline : encode i = .line bytes) (hw : i.wellFormed = true) :
    Host.Core.run Sys2Proof.core bytes.length { s with stream := [encode i] } =
      .next { s with stream := [], buf := cellsOf bytes, n := BitVec.ofNat 8 bytes.length, st := .done,
                     res := frameResult i } := by
  have hd : decode (.line bytes) = .ok i := hline ▸ decodeInvertsEncode i hw
  obtain ⟨h6, len, hbyte, hlen⟩ := (decode_line_iff bytes).1 ⟨i, hd⟩
  have hheld : s.held ++ bytes = bytes := by rw [h.held, List.nil_append]
  have hready := run_line_of_ready bytes bytes.length { s with stream := [encode i] } (congrArg (· :: []) hline) h.st
    (List.ne_nil_of_length_pos (by rw [hheld]; omega)) (by omega)
  simp only [hheld] at hready
  have hrun := hready.trans (run_held_of_feedBytes bytes s _ (h.feeds_complete hbyte h6 hlen))
  rw [hrun, validate_of_wellFormed i bytes hline hw, ← h.held]
  rfl

/-- A well-formed frame row on an armed block: its own step, and the steps that take its bytes. -/
theorem State.Armed.frame_row {s : State} (h : s.Armed) (i : Instr) (start addr len cmd : Byte) (p : List Byte)
    (lo hi : Byte) (hline : encode i = .line (frameBytes start addr len cmd p lo hi)) (hw : i.wellFormed = true) :
    exec i s = .next { s with buf := cellsOf [start], n := 1, held := [addr, len, cmd] ++ p ++ [lo, hi] } ∧
      Host.Core.run Sys2Proof.core (6 + p.length) { s with stream := [encode i] } =
        .next { s with stream := [], buf := cellsOf ([start, addr, len, cmd] ++ p ++ [lo, hi]),
                       n := BitVec.ofNat 8 (6 + p.length), st := .done, res := frameResult i } := by
  have hrun := h.run_frame i _ hline hw
  rw [length_frameBytes_eq_add] at hrun
  exact ⟨h.exec_frame i start _ hline, hrun⟩

/-- Settles O13: each control frame is a frame row of six bytes. -/
theorem controlFramesGiveTheirResult : Obligations.ControlFramesGiveTheirResult := by
  intro len lo hi s h
  exact ⟨h.frame_row (.frameAck len lo hi) 0x02#8 0x03#8 len 0x00#8 [] lo hi rfl,
    h.frame_row (.frameNack len lo hi) 0x02#8 0x03#8 len 0xFF#8 [] lo hi rfl,
    h.frame_row (.frameIllegal len lo hi) 0x02#8 0x03#8 len 0x30#8 [] lo hi rfl⟩

/-- Settles O14: each of the three is a frame row of six bytes and its payload. -/
theorem dataAndBadFramesGiveTheirResult : Obligations.DataAndBadFramesGiveTheirResult := by
  intro start addr len cmd p lo hi s h
  exact ⟨h.frame_row (.frameData len cmd p lo hi) 0x02#8 0x03#8 len cmd p lo hi rfl,
    h.frame_row (.frameBadHeader start addr len cmd p lo hi) start addr len cmd p lo hi rfl,
    h.frame_row (.frameBadCrc len cmd p lo hi) 0x02#8 0x03#8 len cmd p lo hi rfl⟩

end Sys2Proof.Machine
end

section
/-! SUPPORT. The outputs and views of a buffer whose bytes are known (42_validator.md R164 to R166, 10_state.md R33). -/

namespace Sys2Proof.Machine

/-- A range read of a buffer gives the bytes that stand there. -/
theorem memReadFrom_of_cells (m : Memory) (before bytes after : List Byte)
    (hcells : ∀ i, cellAt m i = (before ++ bytes ++ after)[i]?) (hlen : before.length + bytes.length ≤ 255) :
    memReadFrom m before.length bytes.length = .ok bytes := by
  refine memReadFrom_ok m before.length bytes hlen fun k hk => ?_
  rw [hcells, List.append_assoc, List.getElem?_append_right (by omega), Nat.add_sub_cancel_left,
    List.getElem?_append_left hk, List.getElem?_eq_getElem hk]

section
variable {s : State} {body : List Byte} {lo hi : Byte} (hcells : ∀ i, cellAt s.buf i = (body ++ [lo, hi])[i]?)
  (hn : s.n.toNat = body.length + 2) (h6 : config.minFrame ≤ s.n.toNat)
include hcells hn h6

/-- `crc_calc` is the checksum of all but the last two bytes. -/
theorem crcCalc_of_cells : crcCalc s = .ok (crc16 body) := by
  have := s.n.isLt
  have hbody : memReadFrom s.buf 0 body.length = .ok body :=
    memReadFrom_of_cells s.buf [] body [lo, hi] hcells (by rw [List.length_nil]; omega)
  rw [crcCalc, if_pos h6, hn, Nat.add_sub_cancel, hbody]

/-- `crc_rx` is the last two bytes, least significant first. -/
theorem crcRx_of_cells : crcRx s = .ok (lePair lo hi) := by
  have := s.n.isLt
  have hlo : memRead s.buf body.length = .ok lo := memRead_of_cell _ _ _ (by omega) (by simp [hcells])
  have hhi : memRead s.buf (body.length + 1) = .ok hi := memRead_of_cell _ _ _ (by omega) (by simp [hcells])
  rw [crcRx, if_pos h6, hn, Nat.add_sub_cancel, show body.length + 2 - 1 = body.length + 1 from rfl, hlo, hhi]

end

/-- Settles O57: from six bytes on the buffer is a body and two bytes, and the outputs read them there. -/
theorem checksumOutputsShowTheBuffer : Obligations.ChecksumOutputsShowTheBuffer := by
  intro s raw _ hlen hcells
  constructor
  · intro h6
    obtain ⟨start, addr, len, cmd, p, lo, hi, rfl⟩ := exists_frameBytes raw (by omega)
    have hn : s.n.toNat = (frameBody start addr len cmd p).length + 2 := by
      rw [← hlen, frameBytes, List.length_append]
      rfl
    exact ⟨_, lo, hi, rfl, crcCalc_of_cells hcells hn h6, _, crcRx_of_cells hcells hn h6, lePair_toNat lo hi⟩
  · intro hshort
    have hnot : ¬ config.minFrame ≤ s.n.toNat := not_le.2 hshort
    exact ⟨if_neg hnot, if_neg hnot⟩

theorem hasData_iff (s : State) : hasData s = true ↔ s.st = .done ∧ s.res = .data := by
  rw [hasData, Bool.and_eq_true, beq_iff_eq, beq_iff_eq]

theorem frameCompleted_iff (s : State) : frameCompleted s = true ↔ s.st = .done ∧ s.res.byValidation = true := by
  rw [frameCompleted, Bool.and_eq_true, beq_iff_eq]

section
variable {s : State} {start addr len cmd : Byte} {p : List Byte} {lo hi : Byte}
  (hcells : ∀ i, cellAt s.buf i = (frameBytes start addr len cmd p lo hi)[i]?) (hn : s.n.toNat = 6 + p.length)
include hcells hn

/-- The frame view of a completed frame is its command byte and its payload (R165). -/
theorem frameView_of_cells (hdone : frameCompleted s = true) : commandCode s = .ok cmd ∧ payloadView s = .ok p := by
  have := s.n.isLt
  constructor
  · rw [commandCode, if_pos hdone]
    exact memRead_of_cell s.buf 3 cmd (by decide) (hcells 3)
  · rw [payloadView, if_pos hdone, hn, Nat.add_sub_cancel_left]
    exact memReadFrom_of_cells s.buf [start, addr, len, cmd] p [lo, hi] hcells (by simp; omega)

/-- The data view of a data frame is its command byte and its payload together (R164). -/
theorem dataView_of_cells (hdata : hasData s = true) : dataView s = .ok (cmd :: p) := by
  have := s.n.isLt
  have hcount : s.n.toNat - 5 = (cmd :: p).length := by rw [List.length_cons]; omega
  rw [dataView, if_pos hdata, hcount]
  exact memReadFrom_of_cells s.buf [start, addr, len] (cmd :: p) [lo, hi] hcells (by simp; omega)

end

/-- Settles O58: a completed frame has at least six bytes, which are those of the buffer. -/
theorem dataViewsOfADeliveredFrame : Obligations.DataViewsOfADeliveredFrame := by
  intro s hinv
  refine ⟨fun hst hres => ?_, fun hnone => ?_, fun hnone => ?_⟩
  · obtain ⟨h6, _⟩ := hinv.validated hres
    obtain ⟨bytes, hbuf, hlen, _⟩ := hinv.exists_bytes
    obtain ⟨a0, a1, a2, cmd, p, lo, hi, rfl⟩ := exists_frameBytes bytes (by rw [← hlen]; exact h6)
    have hcells (i : Nat) : cellAt s.buf i = (frameBytes a0 a1 a2 cmd p lo hi)[i]? := by rw [hbuf, cellAt_cellsOf]
    rw [length_frameBytes_eq_add] at hlen
    obtain ⟨hcommand, hpayload⟩ := frameView_of_cells hcells hlen ((frameCompleted_iff s).2 ⟨hst, hres⟩)
    refine ⟨a0, a1, a2, cmd, p, lo, hi, hcells, hlen, hcommand, hpayload, fun hdata => ?_⟩
    have hhas : hasData s = true := (hasData_iff s).2 ⟨hst, hdata⟩
    have hn : s.n = BitVec.ofNat 8 (6 + p.length) := by rw [← hlen, BitVec.ofNat_toNat, BitVec.setWidth_eq]
    refine ⟨dataView_of_cells hcells hlen hhas, ?_, ?_⟩
    · rw [dataLen, if_pos hhas, hn]
      congr 1
      bv_omega
    · rw [payloadLen, if_pos hhas, hn]
      congr 1
      bv_omega
  · have hhas : ¬ hasData s = true := fun h => hnone ((hasData_iff s).1 h)
    exact ⟨if_neg hhas, if_neg hhas, _, if_neg hhas⟩
  · have hdone : ¬ frameCompleted s = true := fun h => hnone ((frameCompleted_iff s).1 h)
    exact ⟨if_neg hdone, if_neg hdone⟩

end Sys2Proof.Machine
end

section
/-! SUPPORT. The reference encoder (42_validator.md R168), its round trip (R169) and the corruption of one byte of its
frame (R170), which the checksum always shows (40_crc16.md R109, R111). -/

namespace Sys2Proof

theorem zext16_injective : Function.Injective zext16 := fun a b h => by
  rw [← BitVec.toNat_inj, zext16, zext16, BitVec.toNat_setWidth_of_le (by decide),
    BitVec.toNat_setWidth_of_le (by decide), BitVec.toNat_inj] at h
  exact h

/-- Different bytes take one accumulator to different ones. -/
theorem crcUpdate_injective (c : U16) : Function.Injective (crcUpdate c) := fun _ _ h =>
  zext16_injective ((BitVec.xor_right_inj c).1 (crcShift8_injective h))

/-- One sequence takes different accumulators to different ones. -/
theorem crcFrom_injective (bytes : List Byte) : Function.Injective fun c => crcFrom c bytes := by
  induction bytes with
  | nil => exact fun _ _ h => h
  | cons b bytes ih => exact fun c d h => (BitVec.xor_left_inj (zext16 b)).1 (crcShift8_injective (ih h))

/-- A sequence with one byte changed has another checksum. -/
theorem crc16_set_ne (bytes : List Byte) (k : Nat) (e : Byte) (hk : k < bytes.length) (he : bytes[k]? ≠ some e) :
    crc16 (bytes.set k e) ≠ crc16 bytes := by
  intro h
  rw [List.set_eq_take_append_cons_drop, if_pos hk] at h
  have hsplit : bytes = bytes.take k ++ bytes[k] :: bytes.drop (k + 1) := by simp
  conv at h => rhs; rw [hsplit]
  rw [crc16_eq, crc16_eq, crcFrom_append, crcFrom_append] at h
  have hbyte : e = bytes[k] := crcUpdate_injective _ (crcFrom_injective _ h)
  exact he (by rw [hbyte, List.getElem?_eq_getElem hk])

end Sys2Proof

namespace Sys2Proof.Machine

/-- The two halves of a 16-bit value, as a little-endian pair. -/
theorem lowByte_add_highByte (c : U16) : (lowByte c).toNat + 256 * (highByte c).toNat = c.toNat := by
  have := c.isLt
  rw [lowByte, highByte, BitVec.extractLsb'_toNat, BitVec.extractLsb'_toNat, Nat.shiftRight_eq_div_pow,
    Nat.shiftRight_eq_div_pow]
  omega

/-- Settles O51: the bound on the payload is the encoder's own test, and its last two bytes are the halves of the
checksum. -/
theorem encoderEmitsTheFrame : Obligations.EncoderEmitsTheFrame := by
  intro cmd p
  exact ⟨fun hlong => if_pos hlong, fun hfits => ⟨_, _, if_neg (not_lt.2 hfits), lowByte_add_highByte _⟩⟩

/-- What the encoder accepts, and the frame it then gives. -/
theorem encodeFrame_ok (cmd : Byte) (p f : List Byte) (h : encodeFrame cmd p = .ok f) :
    6 + p.length ≤ 255 ∧ ∃ lo hi, f = frameBytes 0x02#8 0x03#8 (BitVec.ofNat 8 (6 + p.length)) cmd p lo hi ∧
      checksumMatches (frameBody 0x02#8 0x03#8 (BitVec.ofNat 8 (6 + p.length)) cmd p) lo hi = true := by
  obtain ⟨hlong, hfits⟩ := encoderEmitsTheFrame cmd p
  have hlen : 6 + p.length ≤ 255 := by
    by_contra hlt
    rw [hlong (not_le.1 hlt)] at h
    cases h
  obtain ⟨lo, hi, hf, hcrc⟩ := hfits hlen
  exact ⟨hlen, lo, hi, Except.ok.inj (h.symm.trans hf), (checksumMatches_iff lo hi _).2 hcrc.symm⟩

/-- A length byte that counts the bytes is right. -/
theorem lengthByteOk_ofNat (n : Nat) (hn : n ≤ 255) : lengthByteOk (BitVec.ofNat 8 n) n = true :=
  (lengthByteOk_iff _ n).2 (.inr (by rw [BitVec.toNat_ofNat, Nat.mod_eq_of_lt (by omega)]))

/-- Whatever it is given, validation answers one of its own six results. -/
theorem byValidation_validate (raw : List Byte) : (validate raw).byValidation = true := by
  rcases validate_cases raw with ⟨h, _⟩ | ⟨h, _⟩ | ⟨h, _⟩ <;> rw [h]
  · rfl
  · rfl
  · rcases classify_cases raw with h | h | h | h <;> rw [h] <;> rfl

/-- Bytes that are one valid frame, with a length byte that counts them. -/
structure WholeFrame (f : List Byte) : Prop where
  least : 6 ≤ f.length
  most : f.length ≤ 255
  lengthByte : f[2]? = some (BitVec.ofNat 8 f.length)
  header : headerOk f = true
  checksum : checksumOk f = true

/-- What the encoder gives is a valid frame. -/
theorem WholeFrame.of_encodeFrame {cmd : Byte} {p f : List Byte} (h : encodeFrame cmd p = .ok f) : WholeFrame f := by
  obtain ⟨hlen, lo, hi, rfl, hcrc⟩ := encodeFrame_ok cmd p f h
  have hlength := length_frameBytes_eq_add 0x02#8 0x03#8 (BitVec.ofNat 8 (6 + p.length)) cmd p lo hi
  refine ⟨by omega, by omega, ?_, rfl, ?_⟩
  · rw [hlength]
    rfl
  · rw [checksumOk_frameBytes, hcrc]

/-- A frame with its length byte right completes on an armed block at its last byte (R129). -/
theorem State.Armed.feeds_counted {s : State} (h : s.Armed) {f : List Byte} (least : 6 ≤ f.length)
    (most : f.length ≤ 255) (hbyte : f[2]? = some (BitVec.ofNat 8 f.length)) :
    feedBytes f s = .next (enterResult (validate f) (buffering f s)) :=
  h.feeds_complete hbyte least (lengthByteOk_ofNat f.length most)

/-- Settles O52: the frame completes at its last byte, both checks pass, and the views read the buffer where the frame
has its command and payload. -/
theorem encodedFrameRoundTrips : Obligations.EncodedFrameRoundTrips := by
  intro cmd p f s hf h
  obtain ⟨least, most, hbyte, hheader, hchecksum⟩ := WholeFrame.of_encodeFrame hf
  obtain ⟨_, lo, hi, hframe, hcrc⟩ := encodeFrame_ok cmd p f hf
  have hlength : f.length = 6 + p.length := by rw [hframe, length_frameBytes_eq_add]
  have hn := (buffering_n_toNat f s most).trans hlength
  have hcells := fun i => (cellAt_buffering f s i).trans (congrArg (·[i]?) hframe)
  obtain ⟨hcommand, hpayload⟩ := frameView_of_cells (s := enterResult (validate f) (buffering f s)) hcells hn
    ((frameCompleted_iff _).2 ⟨rfl, byValidation_validate f⟩)
  refine ⟨⟨_, h.feeds_counted least most hbyte, ?_, ?_, hcommand, hpayload, fun hdata => ?_⟩, ?_⟩
  · rw [buffering, hlength]
    rfl
  · rw [enterResult_res, validate_of_checks f hheader hchecksum, hframe, classify_frameBytes]
  · exact dataView_of_cells (s := enterResult (validate f) (buffering f s)) hcells hn
      ((hasData_iff _).2 ⟨rfl, hdata⟩)
  · rw [hframe, documentDecode_frameBytes _ _ _ cmd p lo hi rfl hcrc]

section
variable {f : List Byte} {k : Nat} {e : Byte} (hf : WholeFrame f) (hk : k < f.length) (he : f[k]? ≠ some e)
include hf hk he

/-- One byte changed is seen by the header check exactly in the header (R161). -/
theorem WholeFrame.headerOk_set : headerOk (f.set k e) = decide (2 ≤ k) := by
  obtain ⟨hstart, haddr⟩ := (headerOk_iff f).1 hf.header
  rw [Bool.eq_iff_iff, decide_eq_true_iff, headerOk_iff]
  constructor
  · rintro ⟨h0, h1⟩
    by_contra hlt
    obtain rfl | rfl : k = 0 ∨ k = 1 := by omega
    · rw [List.getElem?_set_self hk] at h0
      exact he (hstart.trans h0.symm)
    · rw [List.getElem?_set_self hk] at h1
      exact he (haddr.trans h1.symm)
  · intro h2
    exact ⟨by rw [List.getElem?_set_ne (by omega), hstart], by rw [List.getElem?_set_ne (by omega), haddr]⟩

/-- One byte changed always fails the checksum check (R109, R111). -/
theorem WholeFrame.checksumOk_set : checksumOk (f.set k e) = false := by
  have hlen : 6 ≤ (f.set k e).length := by rw [List.length_set]; exact hf.least
  rw [Bool.eq_false_iff, ne_eq, checksumOk_iff_residue _ hlen, ← (checksumOk_iff_residue f hf.least).1 hf.checksum]
  exact crc16_set_ne f k e hk he

/-- Validation of the whole frame with one byte changed. -/
theorem WholeFrame.validate_set : validate (f.set k e) = if k < 2 then .framing else .checksum := by
  have hheader := hf.headerOk_set hk he
  split
  · next h2 => exact validate_of_bad_header _ (by rw [hheader]; exact decide_eq_false (by omega))
  · next h2 =>
    exact validate_of_bad_checksum _ (by rw [hheader]; exact decide_eq_true (by omega)) (hf.checksumOk_set hk he)

/-- The document's `decode` of the whole frame with one byte changed. -/
theorem WholeFrame.documentDecode_set :
    documentDecode (f.set k e) = .error (if k < 2 then .framing else .checksum) := by
  have hlen : 6 ≤ (f.set k e).length := by rw [List.length_set]; exact hf.least
  have hheader := hf.headerOk_set hk he
  split
  · next h2 => exact documentDecode_of_bad_header _ hlen (by rw [hheader]; exact decide_eq_false (by omega))
  · next h2 =>
    exact documentDecode_of_bad_checksum _ hlen (by rw [hheader]; exact decide_eq_true (by omega))
      (hf.checksumOk_set hk he)

/-- A byte other than the length byte does not change where the frame completes. -/
theorem WholeFrame.feedBytes_set {s : State} (h : s.Armed) (h2 : k ≠ 2) :
    feedBytes (f.set k e) s =
      .next (enterResult (if k < 2 then .framing else .checksum) (buffering (f.set k e) s)) := by
  rw [← hf.validate_set hk he]
  have hlen : (f.set k e).length = f.length := List.length_set
  exact h.feeds_counted (hlen ▸ hf.least) (hlen ▸ hf.most)
    (by rw [hlen, List.getElem?_set_ne h2, hf.lengthByte])

end

/-- Settles O53: the checks see the changed byte wherever it stands, and a changed length byte moves the place of
completion. -/
theorem singleByteCorruptionOutcomes : Obligations.SingleByteCorruptionOutcomes := by
  intro cmd e p f k s hencode h hk he
  have hf := WholeFrame.of_encodeFrame hencode
  have hdocument := hf.documentDecode_set hk he
  refine ⟨fun hlt => ⟨?_, _, hf.feedBytes_set hk he h (by omega), rfl, if_pos hlt⟩, fun hge => ?_,
    fun hge => ⟨_, hf.feedBytes_set hk he h (by omega), rfl, if_neg (by omega)⟩, ?_⟩
  · rw [hdocument, if_pos hlt]
  · rw [hdocument, if_neg (by omega)]
  rintro rfl
  have hbyte : (f.set 2 e)[2]? = some e := List.getElem?_set_self hk
  have hlen : (f.set 2 e).length = f.length := List.length_set
  have hnever (h1 : 1 ≤ e.toNat) (hout : e.toNat ≤ 5 ∨ f.length < e.toNat) :
      ∃ t, feedBytes (f.set 2 e) s = .next t ∧ t.st = .accum ∧ t.n.toNat = f.length := by
    refine ⟨_, h.feeds_incomplete hbyte (hlen ▸ hf.most) ?_, h.st, hlen ▸ buffering_n_toNat _ s (hlen ▸ hf.most)⟩
    rintro k hle ⟨h6, rfl | hcount⟩
    · exact absurd h1 (by decide)
    · omega
  refine ⟨fun hzero h6 => ?_, fun hzero h6 => ?_, fun h6 hlt => ?_, fun h1 h5 => ?_, fun hlt => ?_⟩
  · have hok : lengthByteOk e (f.set 2 e).length = true := (lengthByteOk_iff e _).2 (.inl ⟨hzero, hlen.trans h6⟩)
    exact ⟨_, h.feeds_complete hbyte (hlen ▸ hf.least) hok, rfl, hf.validate_set hk he⟩
  · have hok : lengthByteOk e 6 = true := (lengthByteOk_iff e 6).2 (.inl ⟨hzero, rfl⟩)
    exact ⟨_, h.feeds_prefix hbyte 6 le_rfl (hlen ▸ h6.le) hok, rfl, rfl⟩
  · have hok : lengthByteOk e e.toNat = true := (lengthByteOk_iff e _).2 (.inr rfl)
    exact ⟨_, h.feeds_prefix hbyte e.toNat h6 (hlen ▸ hlt.le) hok, rfl, rfl⟩
  · exact hnever h1 (.inl h5)
  · exact hnever (by omega) (.inr hlt)

end Sys2Proof.Machine
end

section
/-! SUPPORT. Entering and leaving a result (60_exceptions.md R208 to R213): beside ARM and RESET an accumulation only
ends, and what has ended stays. -/

namespace Sys2Proof.Machine

/-- The block is in DONE with the result and the diagnostics of `s` (60_exceptions.md R208, R210). -/
def ShowsOutcomeOf (s t : State) : Prop :=
  t.st = .done ∧ t.res = s.res ∧ t.n = s.n ∧ t.buf = s.buf ∧ t.att = s.att ∧ t.viol = s.viol

/-- A block in DONE is not ready, so no operation of an accumulation applies to it. -/
theorem ShowsOutcomeOf.not_accum {s t : State} (h : ShowsOutcomeOf s t) : t.st ≠ .accum := by
  rw [h.1]
  decide

/-- Beside ARM and RESET nothing takes a block in DONE out of it or changes its outcome. -/
theorem outcome_kept (s : State) : KeptWithoutRestart (ShowsOutcomeOf s) where
  crc _ _ h := h
  held _ _ h := h
  stream _ _ h := h
  byte _ _ _ hst h _ := absurd hst h.not_accum
  attempt _ hst _ h := absurd hst h.not_accum
  timeout _ hst _ h := absurd hst h.not_accum
  io _ hst h := absurd hst h.not_accum

/-- Settles O33: a state in DONE shows its own outcome, and `outcome_kept` covers every row but ARM and RESET. -/
theorem resultLeftOnlyByArmOrReset : Obligations.ResultLeftOnlyByArmOrReset :=
  fun i s _ hst harm hreset h => (outcome_kept s).exec i harm hreset ⟨hst, rfl, rfl, rfl, rfl, rfl⟩ h

/-- Validation always gives a result. -/
theorem validate_ne_none (raw : List Byte) : validate raw ≠ .none := fun h => by
  have hv := byValidation_validate raw
  rw [h] at hv
  cases hv

/-- Since `s` the result and the synchronizer state are as they were, or its accumulation has ended in a result. -/
def SameOrEnded (s t : State) : Prop :=
  (t.st = s.st ∧ t.res = s.res) ∨ (s.st = .accum ∧ t.st = .done ∧ t.res ≠ .none)

/-- A result entered while `SameOrEnded` still shows ACCUM is entered from the ACCUM of `s`. -/
theorem SameOrEnded.enterResult {s u : State} (h : SameOrEnded s u) (hst : u.st = .accum) (v : State) {r : Result}
    (hr : r ≠ .none) : SameOrEnded s (enterResult r v) := by
  rcases h with ⟨hsame, _⟩ | ⟨hs, _, _⟩
  · exact .inr ⟨hsame.symm.trans hst, rfl, hr⟩
  · exact .inr ⟨hs, rfl, hr⟩

/-- Beside ARM and RESET, `res` and `st` are written only together, in ACCUM, by entering a result
(60_exceptions.md R211). -/
theorem sameOrEnded_kept (s : State) : KeptWithoutRestart (SameOrEnded s) where
  crc _ _ h := h
  held _ _ h := h
  stream _ _ h := h
  byte u t b hst h hb := by
    rcases consumeByte_next b u t hb with ⟨_, rfl⟩ | ⟨_, _, rfl⟩ | ⟨raw, _, _, _, rfl⟩
    · exact h
    · exact h
    · exact h.enterResult hst _ (validate_ne_none raw)
  attempt _ _ _ h := h
  timeout _ hst _ h := h.enterResult hst _ (by decide)
  io _ hst h := h.enterResult hst _ (by decide)

/-- The generator's two words write neither `res` nor `st`, so an instruction that changes one of them leaves `crc`. -/
theorem exec_crc_of_result_changed (i : Instr) (s t : State) (hreset : i ≠ .reset) (h : exec i s = .next t)
    (hchange : t.res ≠ s.res ∨ t.st ≠ s.st) : t.crc = s.crc := by
  refine exec_crc i s t ?_ ?_ hreset h
  · rintro rfl
    cases h
    simp at hchange
  · rintro b rfl
    cases h
    simp at hchange

/-- Settles O35: `sameOrEnded_kept` says how `res` and `st` can change, and `crc` and `viol` have their own lemmas. -/
theorem resultEntryIsPrecise : Obligations.ResultEntryIsPrecise := by
  intro i s t _ harm hreset h hchange
  have hcrc := exec_crc_of_result_changed i s t hreset h hchange
  have hviol := (viol_kept s.viol).exec i harm hreset rfl h
  rcases (sameOrEnded_kept s).exec i harm hreset (.inl ⟨rfl, rfl⟩) h with ⟨hst, hres⟩ | ⟨haccum, hdone, hres⟩
  · exact absurd hchange (by simp [hst, hres])
  · exact ⟨haccum, hdone, hres, by simp [rxReady, haccum], by simp [rxReady, hdone], by simp [doneFlag, haccum],
      by simp [doneFlag, hdone], hcrc, hviol⟩

end Sys2Proof.Machine
end

section
/-! SUPPORT. The attempts that end every accumulation (60_exceptions.md R202, 41_reassembler.md R124), and the block
with no input (60_exceptions.md R220). -/

namespace Sys2Proof.Machine

/-- Attempt ends alone, as many as are left, end the accumulation in TIMEOUT. -/
theorem run_attemptEnds (k : Nat) (s : State) (rest : List Input) (hst : s.st = .accum) (hheld : s.held = [])
    (hleft : s.att + (k + 1) = s.maxAttempts) :
    Host.Core.run Sys2Proof.core (k + 1) (setStream (List.replicate (k + 1) (encode .attemptEnd) ++ rest) s) =
      .next (setStream rest { s with att := s.maxAttempts, res := .timeout, st := .done }) := by
  induction k generalizing s with
  | zero =>
    have hturn := step_word_of_nothing_held _ rest _ s decode_attemptEnd hheld
    have hlast := hturn.trans (exec_attemptEnd_last (setStream rest s) hst hleft)
    have hatt : countAttempt (setStream rest s) = setStream rest { s with att := s.maxAttempts } :=
      congrArg (fun a => setStream rest { s with att := a }) hleft
    rw [hatt] at hlast
    exact run_of_step 0 _ _ hlast
  | succ k ih =>
    have hturn := step_word_of_nothing_held _ (List.replicate (k + 1) (encode .attemptEnd) ++ rest) _ s
      decode_attemptEnd hheld
    have hm : s.att + 1 ≠ s.maxAttempts := by omega
    have hcounted := hturn.trans (exec_attemptEnd_counted (setStream _ s) hst hm)
    have hleft' : s.att + 1 + (k + 1) = s.maxAttempts := by omega
    exact (run_of_step (k + 1) _ _ hcounted).trans (ih (countAttempt s) hst hheld hleft')

/-- Settles O38: an armed block has all MAX_ATTEMPTS attempts left. -/
theorem silentDeviceTimesOut : Obligations.SilentDeviceTimesOut := by
  intro s rest harmed hmax
  obtain ⟨k, hk⟩ := Nat.exists_eq_add_of_le' hmax
  have hrun := run_attemptEnds k s rest harmed.st harmed.held (by rw [harmed.att, hk, Nat.zero_add])
  rwa [← hk] at hrun

/-- How many attempts end in a stream. -/
def attemptEnds (xs : List Input) : Nat := xs.countP fun x => decide (decode x = .ok .attemptEnd)

theorem attemptEnds_cons_attemptEnd (x : Input) (xs : List Input) (h : decode x = .ok .attemptEnd) :
    attemptEnds (x :: xs) = attemptEnds xs + 1 :=
  List.countP_cons_of_pos (by simpa using h)

theorem attemptEnds_cons_other (x : Input) (xs : List Input) (h : decode x ≠ .ok .attemptEnd) :
    attemptEnds (x :: xs) = attemptEnds xs :=
  List.countP_cons_of_neg (by simpa using h)

/-- The accumulation has ended, or `d` more attempt ends suffice to end it. -/
def EndsWithin (d : Nat) (s : State) : Prop :=
  s.st = .done ∨ (s.st = .accum ∧ s.maxAttempts ≤ s.att + d)

/-- Beside ARM and RESET nothing raises the number of attempts an accumulation has left. -/
theorem endsWithin_kept (d : Nat) : KeptWithoutRestart (EndsWithin d) where
  crc _ _ h := h
  held _ _ h := h
  stream _ _ h := h
  byte u t b _ h hb := by
    rcases consumeByte_next b u t hb with ⟨_, rfl⟩ | ⟨_, _, rfl⟩ | ⟨_, _, _, _, rfl⟩
    · exact h
    · exact h
    · exact .inl rfl
  attempt s _ _ h := h.imp_right fun ⟨hst, hleft⟩ => ⟨hst, show s.maxAttempts ≤ s.att + 1 + d by omega⟩
  timeout _ _ _ _ := .inl rfl
  io _ _ _ := .inl rfl

variable {d : Nat} {s t : State}

/-- An attempt that ends is one less to end. -/
theorem EndsWithin.attemptEnd (h : EndsWithin (d + 1) s) (he : exec .attemptEnd s = .next t) : EndsWithin d t := by
  rcases h with hdone | ⟨hst, hleft⟩
  · rw [exec_attemptEnd_ignored s (by rw [hdone]; decide)] at he
    cases he
    exact .inl hdone
  · by_cases hm : s.att + 1 = s.maxAttempts
    · rw [exec_attemptEnd_last s hst hm] at he
      cases he
      exact .inl rfl
    · rw [exec_attemptEnd_counted s hst hm] at he
      cases he
      exact .inr ⟨hst, show s.maxAttempts ≤ s.att + 1 + d by omega⟩

/-- An instruction other than ARM and RESET leaves enough attempt ends behind it in the stream. -/
theorem EndsWithin.exec {x : Input} {rest : List Input} {i : Instr} (h : EndsWithin (attemptEnds (x :: rest)) s)
    (hd : decode x = .ok i) (harm : i ≠ .arm) (hreset : i ≠ .reset) (he : exec i s = .next t) :
    EndsWithin (attemptEnds rest) t := by
  by_cases hend : i = .attemptEnd
  · subst hend
    rw [attemptEnds_cons_attemptEnd x rest hd] at h
    exact h.attemptEnd he
  · rw [attemptEnds_cons_other x rest (by simpa [hd] using hend)] at h
    exact (endsWithin_kept _).exec i harm hreset h he

/-- The environment's turn does not touch what the driver has still to present. -/
theorem presentHeld_stream (s t : State) (h : presentHeld s = .next t) : t.stream = s.stream :=
  presentHeld_keeps (fun u => u.stream = s.stream) (fun _ _ hu => hu)
    (fun u v b _ hu hb => by
      obtain ⟨_, _, _, _, hstream, _⟩ := consumeByte_frame b u v hb
      exact hstream.trans hu) s t rfl h

/-- Nor does the arrival of bytes. -/
theorem receive_stream (bytes : List Byte) (s t : State) (h : receive bytes s = .next t) : t.stream = s.stream :=
  presentHeld_stream (setHeld (s.held ++ bytes) s) t h

/-- The stream still to come restarts nothing and ends enough attempts to end the accumulation. -/
structure EndsByStream (s : State) : Prop where
  noRestart : ∀ x ∈ s.stream, decode x ≠ .ok .arm ∧ decode x ≠ .ok .reset
  within : EndsWithin (attemptEnds s.stream) s

theorem EndsByStream.of_stream {xs : List Input} (hxs : ∀ x ∈ xs, decode x ≠ .ok .arm ∧ decode x ≠ .ok .reset)
    (hstream : s.stream = xs) (h : EndsWithin (attemptEnds xs) s) : EndsByStream s := by
  subst hstream
  exact ⟨hxs, h⟩

/-- Whatever word a step runs, the stream behind it still suffices. -/
theorem EndsByStream.step (h : EndsByStream s) (ht : step s = .next t) : EndsByStream t := by
  rcases step_next s t ht with ⟨_, hp⟩ | ⟨_, _, rfl⟩ | ⟨x, rest, i, _, hs, hd, he⟩ | ⟨x, rest, bytes, _, hs, hd, hr⟩
  · have k := endsWithin_kept (attemptEnds s.stream)
    exact .of_stream h.noRestart (presentHeld_stream s t hp) (presentHeld_keeps _ k.held k.byte s t h.within hp)
  · exact h
  · obtain ⟨hxs, hwithin⟩ := h
    rw [hs] at hxs hwithin
    obtain ⟨⟨harm, hreset⟩, hrest⟩ := List.forall_mem_cons.1 hxs
    refine .of_stream hrest (exec_stream i _ t he) (EndsWithin.exec (s := setStream rest s) hwithin hd ?_ ?_ he)
    · rintro rfl
      exact harm hd
    · rintro rfl
      exact hreset hd
  · obtain ⟨hxs, hwithin⟩ := h
    rw [hs] at hxs hwithin
    rw [attemptEnds_cons_other x rest (by rw [hd]; exact fun h => nomatch h)] at hwithin
    exact .of_stream (List.forall_mem_cons.1 hxs).2 (receive_stream bytes _ t hr)
      ((endsWithin_kept _).receive (s := setStream rest s) bytes hwithin hr)

end Sys2Proof.Machine

namespace Sys2Proof.Machine

/-- Settles O37: at the end of the stream no attempt end is left, and an accumulation that goes on has an attempt
left. -/
theorem enoughAttemptsEndEveryAccumulation : Obligations.EnoughAttemptsEndEveryAccumulation := by
  intro k s t hsafe hst hxs hcount hrun hend
  have hinv : t.Inv := run_keeps State.Inv stepKeepsTheInvariant k s t hsafe.inv hrun
  have hleft : s.maxAttempts ≤ s.att + attemptEnds s.stream := Nat.sub_le_iff_le_add'.1 hcount
  have hlast : EndsByStream t :=
    run_keeps EndsByStream (fun _ _ hu hstep => hu.step hstep) k s t ⟨hxs, .inr ⟨hst, hleft⟩⟩ hrun
  rcases hlast.within with hdone | ⟨haccum, hnone⟩
  · exact ⟨hdone, hinv.doneResult hdone⟩
  · have hatt := (hinv.accumOpen haccum).2
    rw [hend] at hnone
    exact absurd hnone (Nat.not_le.2 hatt)

/-- Settles O23: with nothing presented only a held byte of a ready block would move. -/
theorem blockHoldsItsStateBetweenWords : Obligations.BlockHoldsItsStateBetweenWords := by
  intro s hs hheld
  refine step_nothing s hs (Bool.eq_false_iff.2 fun hf => ?_)
  obtain ⟨hst, hsome, _⟩ := (heldGoesFirst_iff s).1 hf
  exact hsome (hheld hst)

end Sys2Proof.Machine
end

section
/-! SUPPORT. Reset and the parameter (70_reset_and_hazards.md R230 to R232). -/

namespace Sys2Proof.Machine

/-- No operation writes MAX_ATTEMPTS. -/
theorem maxAttempts_kept (m : Nat) : KeptByOperations fun s => s.maxAttempts = m where
  crc _ _ h := h
  held _ _ h := h
  stream _ _ h := h
  byte s t b _ h hb := by
    obtain ⟨_, _, _, hmax, _⟩ := consumeByte_frame b s t hb
    exact hmax.trans h
  attempt _ _ _ h := h
  timeout _ _ _ h := h
  io _ _ h := h
  arm _ h := h
  reset _ h := h

/-- Settles O30: no operation writes MAX_ATTEMPTS, so no step does. -/
theorem parameterNeverChanges : Obligations.ParameterNeverChanges :=
  fun s _ h => (maxAttempts_kept s.maxAttempts).step rfl h

theorem exec_reset (s : State) : exec .reset s = .next (resetBlock s) := rfl

/-- With no byte buffered, the outputs that show buffered bytes have no value (10_state.md R32, 42_validator.md R166). -/
theorem byteOutputs_of_empty {s : State} (hn : s.n = 0) :
    lenField s = .error (.outputHasNoValue .lenField) ∧ crcRx s = .error (.outputHasNoValue .crcRx) ∧
      crcCalc s = .error (.outputHasNoValue .crcCalc) := by
  have hcount : s.n.toNat = 0 := by rw [hn]; rfl
  have hlen : ¬ 3 ≤ s.n.toNat := by omega
  have hframe : ¬ config.minFrame ≤ s.n.toNat := by rw [hcount]; decide
  exact ⟨if_neg hlen, if_neg hframe, if_neg hframe⟩

/-- Before the block is done, the lengths of a data result have no value (10_state.md R33). -/
theorem dataLengths_of_not_done {s : State} (hst : s.st ≠ .done) :
    dataLen s = .error (.outputHasNoValue .dataLen) ∧ payloadLen s = .error (.outputHasNoValue .payloadLen) := by
  have hdata : ¬ hasData s = true := fun h => hst ((hasData_iff s).1 h).1
  exact ⟨if_neg hdata, if_neg hdata⟩

/-- IDLE, NONE and the count 0 all have the code 0, so the status word after reset is 0 (10_state.md R33). -/
theorem statusWord_resetBlock (s : State) : statusWord (resetBlock s) = 0x0000#16 := by
  simp only [statusWord, resetBlock_n, resetBlock_viol, resetBlock_res, resetBlock_st]
  decide

/-- Settles O1: `resetBlock` writes every field, and an emptied block in IDLE has neither bytes nor a result to show. -/
theorem resetSetsEveryPieceOfState : Obligations.ResetSetsEveryPieceOfState := by
  intro s
  obtain ⟨hlen, hrx, hcalc⟩ := byteOutputs_of_empty (resetBlock_n s)
  obtain ⟨hdata, hpayload⟩ := dataLengths_of_not_done (s := resetBlock s) (by simp)
  exact ⟨resetBlock s, exec_reset s, rfl, rfl, rfl, rfl, rfl, rfl, cellAt_nil, rfl, rfl, rfl, statusWord_resetBlock s,
    rfl, hlen, fun a => memRead_nil a.toNat, hrx, hcalc, hdata, hpayload, rfl, rfl, rfl⟩

/-- Settles O2: `resetBlock` writes what `State.reset` holds, in every field but the model's own three. -/
theorem resetStateIsWhatRstLeaves : Obligations.ResetStateIsWhatRstLeaves := exec_reset

end Sys2Proof.Machine
end
